-- ==== Sys2Proof/Word.lean ====
section
/-! DEFINITION. The word types of the block (spec 00_scope.md R9, 30_encoding.md R62): everything is unsigned, no
operation has a signed operand. -/

namespace Sys2Proof

/-- R9: an unsigned integer in 0..255; a character is a byte read as its ASCII code. -/
abbrev Byte := BitVec 8

/-- R64, R65: the 4-bit value of one hex character. -/
abbrev Nibble := BitVec 4

/-- R62: a major or minor priority, 2 bits. -/
abbrev Prio := BitVec 2

/-- R62: a bus address, 7 bits. -/
abbrev BusAddr := BitVec 7

/-- R62: the header value `HDRWORD`, 16 bits. -/
abbrev HeaderWord := BitVec 16

end Sys2Proof
end

