-- ==== Sys2Proof/Config.lean ====
section
/-! DEFINITION. The constants the document fixes (00_scope.md R6), the build-time parameters it leaves open (R7) as one
record of plain data, and the free values behind the parameters to which no file of the spec gives a value. -/

namespace Sys2Proof

namespace Config

/-- R6, D1: the start marker, the character `:`. -/
def START : Byte := 0x3A

/-- R6: the end marker, the character `;`. -/
def END : Byte := 0x3B

/-- R6: the character `N`, written at frame position 6. -/
def FLAG_N : Byte := 0x4E

/-- R6: characters in the packed header. -/
def HDR_CHARS : Nat := 4

/-- R6: the shift of the bus address in the header value. -/
def ADDR_SHIFT : Nat := 5

/-- R6: the shift of the minor priority in the header value. -/
def MINOR_SHIFT : Nat := 12

/-- R6: the shift of the major priority in the header value. -/
def MAJOR_SHIFT : Nat := 14

/-- R6: the major priority "representing 'normal'". -/
def DEFAULT_MAJOR : Prio := 2

/-- R7, D6: the shortest frame `SPLIT_FRAME` accepts. -/
def MIN_FRAME_LEN : Nat := 10

/-- FREE VALUE (log entry 4): ACCEPT_LOWERCASE_HEX is OPEN (R7, D7), so no proof can see its value in State.reset. -/
opaque acceptLowercaseHex : Bool

/-- FREE VALUE (log entry 4): the table behind `priority_of` is in no source (R7, R137, D16); an opcode without an entry
is `UnknownOpcode`. -/
opaque priorityTable : List (Byte × Prio)

end Config

/-- The parameters of R7 that a claim quantifies over. They are fixed when the block is built and no operation writes
them (R8, R26); they are kept beside the state so that "for all states" says "for all parameters" (log entry 1). -/
structure Params where
  /-- TYPE_TAG_STD: the supported frame-type tag (D2). -/
  typeTagStd : Byte
  /-- MAX_FRAME_LEN: the largest total frame length, both markers counted; `none` is infinity (D5). -/
  maxFrameLen : Option Nat
  /-- ACCEPT_LOWERCASE_HEX: whether `a` to `f` are valid hex on reading (D7). -/
  acceptLowercaseHex : Bool
  /-- `priority_of` as data: the registered opcodes with their minor priority (D16). -/
  priorityTable : List (Byte × Prio)
  deriving DecidableEq, Repr

/-- R7: MAX_FRAME_LEN "must be at least `MIN_FRAME_LEN`". -/
def Params.wf (p : Params) : Bool :=
  match p.maxFrameLen with
  | none => true
  | some m => decide (Config.MIN_FRAME_LEN ≤ m)

/-- The parameters of the machine after reset: the tag of R7 (PRESUMED, log entry 2), the document's own unbounded buffer
(DESIGN CHOICE, log entry 3), the two free values (log entry 4). -/
def Config.buildParams : Params :=
  { typeTagStd := 0x53
    maxFrameLen := none
    acceptLowercaseHex := Config.acceptLowercaseHex
    priorityTable := Config.priorityTable }

end Sys2Proof
end

