-- ==== Sys2Proof/Syntax.lean ====
section
/-! DEFINITION. The syntax: what the host can present at the block's ports (decision D12; 30_encoding.md R72, R73), the
instructions (one constructor per row of spec/opcode_table.json), and the data formats of results (R62, R161, R180). -/

namespace Sys2Proof

/-- The operations of the block, one constructor per row of spec/opcode_table.json (R73). A bit the row's mask leaves
free is an operand. -/
inductive Instr where
  /-- `TOK.START`, R101. -/
  | tokStart
  /-- `TOK.END.EMIT`, R102. -/
  | tokEndEmit
  /-- `TOK.END.NULL`, R103. -/
  | tokEndNull
  /-- `TOK.END.STRAY`, R104. -/
  | tokEndStray
  /-- `TOK.DATA.APPEND`, R105, of the received byte. -/
  | tokDataAppend (b : Byte)
  /-- `TOK.DATA.OVERFLOW`, R106, of the received byte. -/
  | tokDataOverflow (b : Byte)
  /-- `TOK.DATA.DISCARD`, R107, of the received byte. -/
  | tokDataDiscard (b : Byte)
  /-- `ENCODE_HEADER`, R133. -/
  | encodeHeader (major minor : Prio) (busAddress : BusAddr)
  /-- `DECODE_HEADER`, R134, of a byte sequence of any length. -/
  | decodeHeader (text : List Byte)
  /-- `BUILD_PREFIX`, R136. -/
  | buildPrefix (major minor : Prio) (busAddress : BusAddr)
  /-- `ENCODE_HEADER_DEFAULT`, R137; `none` is an absent argument. -/
  | encodeHeaderDefault (major minor : Option Prio) (opcode : Byte) (busAddress : BusAddr)
  /-- `SPLIT_FRAME`, R161, of a frame (R160). -/
  | splitFrame (frame : List Byte)
  /-- `UNITSEL.RESERVED5`, R79. -/
  | unitselReserved5
  /-- `UNITSEL.RESERVED6_7`, R79; the operand is bit 0 of `op`. -/
  | unitselReserved67 (low : BitVec 1)
  /-- `HEXDEC.DIGIT_0_7`, R131: `0x30 | d`. -/
  | hexdecDigit07 (d : BitVec 3)
  /-- `HEXDEC.DIGIT_8_9`, R131: `0x38 | d`. -/
  | hexdecDigit89 (d : BitVec 1)
  /-- `HEXDEC.UPPER_A`, R131: 0x41. -/
  | hexdecUpperA
  /-- `HEXDEC.UPPER_B_C`, R131: `0x42 | d`. -/
  | hexdecUpperBC (d : BitVec 1)
  /-- `HEXDEC.UPPER_D_E`, R131: `0x44 | d`. -/
  | hexdecUpperDE (d : BitVec 1)
  /-- `HEXDEC.UPPER_F`, R131: 0x46. -/
  | hexdecUpperF
  /-- `HEXDEC.LOWER_a`, R131: 0x61. -/
  | hexdecLowerA
  /-- `HEXDEC.LOWER_b_c`, R131: `0x62 | d`. -/
  | hexdecLowerBC (d : BitVec 1)
  /-- `HEXDEC.LOWER_d_e`, R131: `0x64 | d`. -/
  | hexdecLowerDE (d : BitVec 1)
  /-- `HEXDEC.LOWER_f`, R131: 0x66. -/
  | hexdecLowerF
  /-- `HEXDEC.INVALID`, R131, of a byte that no earlier row takes. -/
  | hexdecInvalid (c : Byte)
  /-- `HEXENC.DIGIT_0_7`, R130: nibble 0 to 7. -/
  | hexencDigit07 (d : BitVec 3)
  /-- `HEXENC.DIGIT_8_9`, R130: nibble `8 | d`. -/
  | hexencDigit89 (d : BitVec 1)
  /-- `HEXENC.LETTER`, R130: a nibble that no earlier row takes (10 to 15). -/
  | hexencLetter (n : Nibble)
  /-- `FEED`, R109. -/
  | feed (chunk : List Byte)
  /-- `RESET`, R210. -/
  | reset
  deriving DecidableEq, Repr

/-- The seven per-byte operations of the tokenizer (R71), without their byte. -/
inductive TokOp where
  | start | endEmit | endNull | endStray | append | overflow | discard
  deriving DecidableEq, Repr

/-- The operand ports beside the 3-bit `op` of R72, at the widths D12 gives them. The two `Given` lines say whether an
optional argument of R137 is present; no other operation reads them (log entry 9). -/
structure UnitPorts where
  major : Prio
  minor : Prio
  majorGiven : Bool
  minorGiven : Bool
  busAddress : BusAddr
  opcode : Byte
  bytes : List Byte
  deriving DecidableEq, Repr

/-- The six formats of R73. -/
inductive Port where
  | rxByte | unitSel | hexChar | nibble | chunk | signal
  deriving DecidableEq, Repr

/-- One delivery of the host at one port (D12): this is the "word" the decoder reads. -/
inductive Transaction where
  /-- `RXBYTE`: one received byte. -/
  | rxByte (b : Byte)
  /-- `UNITSEL`: the unit-select code and its operand ports. -/
  | unitSel (op : BitVec 3) (ports : UnitPorts)
  /-- `HEXCHAR`: a byte for `HEXDEC`. -/
  | hexChar (c : Byte)
  /-- `NIBBLE`: a nibble for `HEXENC`. -/
  | nibble (n : Nibble)
  /-- `CHUNK`: a byte sequence for `FEED`. -/
  | chunk (bytes : List Byte)
  /-- `SIGNAL`: the level of the reset input. -/
  | signal (level : BitVec 1)
  deriving DecidableEq, Repr

/-- What selection looks at beside the delivery: for a received byte the flag, `len(buf)` and MAX_FRAME_LEN (R71), for a
hex character ACCEPT_LOWERCASE_HEX (R65, R73). -/
structure SelectView where
  inside : Bool
  len : Nat
  maxFrameLen : Option Nat
  acceptLowercaseHex : Bool
  deriving DecidableEq, Repr

/-- Why a transaction selects no operation. -/
inductive DecodeError where
  /-- The tokenizer is in a state the spec gives no meaning (R23, U15). -/
  | unreachableState
  /-- The reset input is not asserted, so it selects nothing (the table's mask of RESET). -/
  | resetNotAsserted
  deriving DecidableEq, Repr

/-- R180: the closed set of error kinds. The last three are raised by nothing in scope (R187). -/
inductive ErrKind where
  | tooShort | unsupportedFrameType | malformedHeader | unknownOpcode
  | invalidAddress | connectionError | connectionLost
  deriving DecidableEq, Repr

/-- R62, R68: the fields of a header value. -/
structure HeaderFields where
  major : Prio
  minor : Prio
  busAddress : BusAddr
  deriving DecidableEq, Repr

/-- R161: what `SPLIT_FRAME` answers for a frame it accepts. -/
structure SplitFields where
  tag : Byte
  major : Prio
  minor : Prio
  busAddress : BusAddr
  flag : Byte
  body : List Byte
  deriving DecidableEq, Repr

end Sys2Proof
end

