-- ==== Sys2Proof/Machine/Operands.lean ====
section
/-! DEFINITION. The operand forms and the combinational functions: markers and the frame shape (R113, R160), the hex
alphabets (R64, R65), the header value and its text (R62, R63, R67 to R69), the frame's fields (R60, R161). No function
here reads the state. -/

namespace Sys2Proof.Machine

/-- R6: the two bytes that open and close a frame. -/
def isMarker (b : Byte) : Bool := b == Config.START || b == Config.END

/-- R100: "other" is any byte that is neither `START` nor `END`. -/
def isData (b : Byte) : Bool := !isMarker b

/-- R10: the half-open slice `s[i..j)`. -/
def slice (s : List Byte) (i j : Nat) : List Byte := (s.take j).drop i

/-- R160: the shape of a tokenizer frame: `START`, at least one content byte, `END`, no marker elsewhere. DESIGN CHOICE (log
entry 20): this is R160's own list, without the bound MAX_FRAME_LEN that R113 puts on an emitted frame (see `frameFits`), so
a longer frame is a frame too. -/
def isFrame (f : List Byte) : Bool :=
  decide (3 ≤ f.length) && (f.head? == some Config.START) && (f.getLast? == some Config.END)
    && (slice f 1 (f.length - 1)).all isData

/-- R21 (c): `len(buf) <= MAX_FRAME_LEN - 1`. -/
def bufFits (maxFrameLen : Option Nat) (len : Nat) : Bool :=
  match maxFrameLen with
  | none => true
  | some m => decide (len + 1 ≤ m)

/-- R105: `len(buf) < MAX_FRAME_LEN - 1`. -/
def bufHasRoom (maxFrameLen : Option Nat) (len : Nat) : Bool :=
  match maxFrameLen with
  | none => true
  | some m => decide (len + 1 < m)

/-- R106: `len(buf) = MAX_FRAME_LEN - 1`; never with an infinite MAX_FRAME_LEN. -/
def bufIsFull (maxFrameLen : Option Nat) (len : Nat) : Bool :=
  match maxFrameLen with
  | none => false
  | some m => decide (len + 1 = m)

/-- R113: `len(f) <= MAX_FRAME_LEN`. -/
def frameFits (maxFrameLen : Option Nat) (len : Nat) : Bool :=
  match maxFrameLen with
  | none => true
  | some m => decide (len ≤ m)

/-- R130: one nibble to one upper-case hex character. -/
def hexEnc (n : Nibble) : Byte :=
  if n ≤ 9 then 0x30 + n.setWidth 8 else 0x41 + (n.setWidth 8 - 10)

/-- R131: one byte to a nibble; `none` is `Invalid`. The flag is ACCEPT_LOWERCASE_HEX. -/
def hexDec (lowercase : Bool) (c : Byte) : Option Nibble :=
  if 0x30 ≤ c && c ≤ 0x39 then some ((c - 0x30).setWidth 4)
  else if 0x41 ≤ c && c ≤ 0x46 then some ((c - 0x41 + 10).setWidth 4)
  else if 0x61 ≤ c && c ≤ 0x66 then (if lowercase then some ((c - 0x61 + 10).setWidth 4) else none)
  else none

/-- R65, R73: the bytes some row of `HEXDEC` before `HEXDEC.INVALID` takes; the flag is ACCEPT_LOWERCASE_HEX. -/
def isHexByte (lowercase : Bool) (c : Byte) : Bool := (hexDec lowercase c).isSome

/-- The byte of a table row: the row's fixed bits with its free low bits. -/
def rowByte {w : Nat} (fixed : Byte) (free : BitVec w) : Byte := fixed ||| free.setWidth 8

/-- R69, R132: header value from fields. -/
def packHeader (major minor : Prio) (busAddress : BusAddr) : HeaderWord :=
  (major.setWidth 16 <<< Config.MAJOR_SHIFT) ||| (minor.setWidth 16 <<< Config.MINOR_SHIFT)
    ||| (busAddress.setWidth 16 <<< Config.ADDR_SHIFT)

/-- R68: fields from the header value; bits 4:0 go nowhere (R75). -/
def unpackHeader (v : HeaderWord) : HeaderFields :=
  { major := v.extractLsb' 14 2, minor := v.extractLsb' 12 2, busAddress := v.extractLsb' 5 7 }

/-- R41, R63: the header value as text, most significant nibble first. -/
def headerText (v : HeaderWord) : List Byte :=
  [hexEnc (v.extractLsb' 12 4), hexEnc (v.extractLsb' 8 4), hexEnc (v.extractLsb' 4 4), hexEnc (v.extractLsb' 0 4)]

/-- R67: header value from the four nibbles of its text, `(n0<<12) | (n1<<8) | (n2<<4) | n3`. -/
def headerValue (n0 n1 n2 n3 : Nibble) : HeaderWord :=
  (n0.setWidth 16 <<< 12) ||| (n1.setWidth 16 <<< 8) ||| (n2.setWidth 16 <<< 4) ||| n3.setWidth 16

/-- R133: `ENCODE_HEADER`. -/
def encodeHeaderText (major minor : Prio) (busAddress : BusAddr) : List Byte :=
  headerText (packHeader major minor busAddress)

/-- R134: `DECODE_HEADER`. A length other than 4 and a byte that is no hex character give the same kind (R183). -/
def decodeHeaderText (lowercase : Bool) (text : List Byte) : Except ErrKind HeaderFields :=
  match text with
  | [c0, c1, c2, c3] =>
    match hexDec lowercase c0, hexDec lowercase c1, hexDec lowercase c2, hexDec lowercase c3 with
    | some n0, some n1, some n2, some n3 => .ok (unpackHeader (headerValue n0 n1 n2 n3))
    | _, _, _, _ => .error .malformedHeader
  | _ => .error .malformedHeader

/-- R136: `BUILD_PREFIX`. -/
def prefixText (tag : Byte) (major minor : Prio) (busAddress : BusAddr) : List Byte :=
  [Config.START, tag] ++ encodeHeaderText major minor busAddress ++ [Config.FLAG_N]

/-- R137: `priority_of`; `none` is `UnknownOpcode`. -/
def priorityOf (p : Params) (opcode : Byte) : Option Prio := p.priorityTable.lookup opcode

/-- R137: `ENCODE_HEADER_DEFAULT`. `priority_of` is consulted only when `minor` is absent. -/
def encodeHeaderDefaultText (p : Params) (major minor : Option Prio) (opcode : Byte) (busAddress : BusAddr) :
    Except ErrKind (List Byte) :=
  let m := major.getD Config.DEFAULT_MAJOR
  match minor with
  | some n => .ok (encodeHeaderText m n busAddress)
  | none =>
    match priorityOf p opcode with
    | some n => .ok (encodeHeaderText m n busAddress)
    | none => .error .unknownOpcode

/-- R161: `SPLIT_FRAME` of a frame. The three checks stand in the order of R189; flag and body pass through unexamined
(R165). -/
def splitFields (p : Params) (f : List Byte) : Except ErrKind SplitFields :=
  if f.length < Config.MIN_FRAME_LEN then .error .tooShort
  else if f.getD 1 0 != p.typeTagStd then .error .unsupportedFrameType
  else
    match decodeHeaderText p.acceptLowercaseHex (slice f 2 6) with
    | .error k => .error k
    | .ok h =>
      .ok { tag := f.getD 1 0, major := h.major, minor := h.minor, busAddress := h.busAddress
            flag := f.getD 6 0, body := slice f 7 (f.length - 1) }

end Sys2Proof.Machine
end

