-- ==== Sys2Proof/WellFormed.lean ====
section
/-! DEFINITION. Which instructions are well formed: the operand is one the row takes (30_encoding.md R71, R73; 42_frame_split.md
R160). -/

namespace Sys2Proof

/-- The operand checks: a data operation carries no marker (R71 rows 5 to 7), the catch-all rows carry only what no
earlier row always takes (R65, R64; a lower-case digit is `HEXDEC.INVALID`'s where ACCEPT_LOWERCASE_HEX is false), `SPLIT_FRAME` carries a frame (R160). Every other operand is legal by its width. -/
def Instr.wf : Instr → Bool
  | .tokDataAppend b => Machine.isData b
  | .tokDataOverflow b => Machine.isData b
  | .tokDataDiscard b => Machine.isData b
  | .splitFrame f => Machine.isFrame f
  | .hexdecInvalid c => !Machine.isHexByte false c
  | .hexencLetter n => decide (10 ≤ n)
  | .tokStart => true
  | .tokEndEmit => true
  | .tokEndNull => true
  | .tokEndStray => true
  | .encodeHeader _ _ _ => true
  | .decodeHeader _ => true
  | .buildPrefix _ _ _ => true
  | .encodeHeaderDefault _ _ _ _ => true
  | .unitselReserved5 => true
  | .unitselReserved67 _ => true
  | .hexdecDigit07 _ => true
  | .hexdecDigit89 _ => true
  | .hexdecUpperA => true
  | .hexdecUpperBC _ => true
  | .hexdecUpperDE _ => true
  | .hexdecUpperF => true
  | .hexdecLowerA => true
  | .hexdecLowerBC _ => true
  | .hexdecLowerDE _ => true
  | .hexdecLowerF => true
  | .hexencDigit07 _ => true
  | .hexencDigit89 _ => true
  | .feed _ => true
  | .reset => true

end Sys2Proof
end

