-- ==== Sys2Proof/Decode.lean ====
section
/-! DEFINITION. Operation selection: the opcode table as data (30_encoding.md R71 to R73), the decoder from a delivered
transaction to an instruction, total and rejecting by name, and the encoder back. -/

namespace Sys2Proof

/-! ## Selecting a tokenizer operation (R71) -/

/-- R23: the view of a state the spec gives a meaning: `inside` exactly when `buf` is not empty. -/
def SelectView.coherent (v : SelectView) : Bool := v.inside == (v.len != 0)

/-- R71: the operation a received byte selects. A start marker selects `TOK.START` in any state (R101); the other six
need a state the spec gives a meaning (R23, U15), and a data byte inside a frame also needs `len(buf)` at most
MAX_FRAME_LEN - 1 (R21 (c), R108). -/
def selectTok (v : SelectView) (b : Byte) : Option TokOp :=
  if b = Config.START then some .start
  else if !v.coherent then none
  else if b = Config.END then
    if !v.inside then some .endStray else if v.len = 1 then some .endNull else some .endEmit
  else if !v.inside then some .discard
  else if Machine.bufHasRoom v.maxFrameLen v.len then some .append
  else if Machine.bufIsFull v.maxFrameLen v.len then some .overflow
  else none

/-- The instruction of a tokenizer operation on its byte. -/
def TokOp.instr (op : TokOp) (b : Byte) : Instr :=
  match op with
  | .start => .tokStart
  | .endEmit => .tokEndEmit
  | .endNull => .tokEndNull
  | .endStray => .tokEndStray
  | .append => .tokDataAppend b
  | .overflow => .tokDataOverflow b
  | .discard => .tokDataDiscard b

/-! ## The decoder -/

/-- An optional argument of R137 read from its presence line and its value. -/
def optionalPort (given : Bool) (value : Prio) : Option Prio := if given then some value else none

/-- R72: the operation of the 3-bit unit select, with the operands from their ports. -/
def decodeUnit (op : BitVec 3) (x : UnitPorts) : Instr :=
  if op = 0 then .encodeHeader x.major x.minor x.busAddress
  else if op = 1 then .decodeHeader x.bytes
  else if op = 2 then .buildPrefix x.major x.minor x.busAddress
  else if op = 3 then
    .encodeHeaderDefault (optionalPort x.majorGiven x.major) (optionalPort x.minorGiven x.minor) x.opcode x.busAddress
  else if op = 4 then .splitFrame x.bytes
  else if op = 5 then .unitselReserved5
  else .unitselReserved67 (op.extractLsb' 0 1)

/-- R65, R73: the row of a `HEXCHAR` byte, in the table's order. The flag is ACCEPT_LOWERCASE_HEX: the lower-case rows
"apply only when `ACCEPT_LOWERCASE_HEX` holds and otherwise fall through to `HEXDEC.INVALID`". -/
def decodeHexChar (lowercase : Bool) (c : Byte) : Instr :=
  if c &&& 0xF8 = 0x30 then .hexdecDigit07 (c.extractLsb' 0 3)
  else if c &&& 0xFE = 0x38 then .hexdecDigit89 (c.extractLsb' 0 1)
  else if c = 0x41 then .hexdecUpperA
  else if c &&& 0xFE = 0x42 then .hexdecUpperBC (c.extractLsb' 0 1)
  else if c &&& 0xFE = 0x44 then .hexdecUpperDE (c.extractLsb' 0 1)
  else if c = 0x46 then .hexdecUpperF
  else if c = 0x61 then if lowercase then .hexdecLowerA else .hexdecInvalid c
  else if c &&& 0xFE = 0x62 then if lowercase then .hexdecLowerBC (c.extractLsb' 0 1) else .hexdecInvalid c
  else if c &&& 0xFE = 0x64 then if lowercase then .hexdecLowerDE (c.extractLsb' 0 1) else .hexdecInvalid c
  else if c = 0x66 then if lowercase then .hexdecLowerF else .hexdecInvalid c
  else .hexdecInvalid c

/-- R64, R73: the row of a nibble, in the table's order. -/
def decodeNibble (n : Nibble) : Instr :=
  if n &&& 0x8 = 0x0 then .hexencDigit07 (n.extractLsb' 0 3)
  else if n &&& 0xE = 0x8 then .hexencDigit89 (n.extractLsb' 0 1)
  else .hexencLetter n

/-- The instruction a transaction selects in a view, or the name of the reason why it selects none. -/
def decode (v : SelectView) (t : Transaction) : Except DecodeError Instr :=
  match t with
  | .rxByte b =>
    match selectTok v b with
    | some op => .ok (op.instr b)
    | none => .error .unreachableState
  | .unitSel op x => .ok (decodeUnit op x)
  | .hexChar c => .ok (decodeHexChar v.acceptLowercaseHex c)
  | .nibble n => .ok (decodeNibble n)
  | .chunk bytes => .ok (.feed bytes)
  | .signal level => if level = 1 then .ok .reset else .error .resetNotAsserted

/-! ## The encoder -/

/-- Operand ports with nothing on them. -/
def UnitPorts.zero : UnitPorts :=
  { major := 0, minor := 0, majorGiven := false, minorGiven := false, busAddress := 0, opcode := 0, bytes := [] }

/-- The transaction that presents an instruction to the block, at the port its format names (R73), with zeros on every
operand port the instruction does not read. -/
def encode : Instr → Transaction
  | .tokStart => .rxByte Config.START
  | .tokEndEmit => .rxByte Config.END
  | .tokEndNull => .rxByte Config.END
  | .tokEndStray => .rxByte Config.END
  | .tokDataAppend b => .rxByte b
  | .tokDataOverflow b => .rxByte b
  | .tokDataDiscard b => .rxByte b
  | .encodeHeader ma mi a => .unitSel 0 { UnitPorts.zero with major := ma, minor := mi, busAddress := a }
  | .decodeHeader bytes => .unitSel 1 { UnitPorts.zero with bytes := bytes }
  | .buildPrefix ma mi a => .unitSel 2 { UnitPorts.zero with major := ma, minor := mi, busAddress := a }
  | .encodeHeaderDefault ma mi o a =>
    .unitSel 3 { UnitPorts.zero with
      major := ma.getD 0, minor := mi.getD 0, majorGiven := ma.isSome, minorGiven := mi.isSome
      opcode := o, busAddress := a }
  | .splitFrame f => .unitSel 4 { UnitPorts.zero with bytes := f }
  | .unitselReserved5 => .unitSel 5 UnitPorts.zero
  | .unitselReserved67 low => .unitSel (0b11#2 ++ low) UnitPorts.zero
  | .hexdecDigit07 d => .hexChar (Machine.rowByte 0x30 d)
  | .hexdecDigit89 d => .hexChar (Machine.rowByte 0x38 d)
  | .hexdecUpperA => .hexChar 0x41
  | .hexdecUpperBC d => .hexChar (Machine.rowByte 0x42 d)
  | .hexdecUpperDE d => .hexChar (Machine.rowByte 0x44 d)
  | .hexdecUpperF => .hexChar 0x46
  | .hexdecLowerA => .hexChar 0x61
  | .hexdecLowerBC d => .hexChar (Machine.rowByte 0x62 d)
  | .hexdecLowerDE d => .hexChar (Machine.rowByte 0x64 d)
  | .hexdecLowerF => .hexChar 0x66
  | .hexdecInvalid c => .hexChar c
  | .hexencDigit07 d => .nibble (d.setWidth 4)
  | .hexencDigit89 d => .nibble (0b100#3 ++ d)
  | .hexencLetter n => .nibble n
  | .feed chunk => .chunk chunk
  | .reset => .signal 1

/-- R71, R73, R23: the condition on the state and the parameters under which an instruction is the one its encoding selects.
The tokenizer's end-marker and data operations have one, and the rows that ACCEPT_LOWERCASE_HEX decides between. -/
def Instr.selectedIn (v : SelectView) : Instr → Bool
  | .tokEndEmit => v.inside && decide (2 ≤ v.len)
  | .tokEndNull => v.inside && decide (v.len = 1)
  | .tokEndStray => !v.inside && decide (v.len = 0)
  | .tokDataAppend _ => v.inside && decide (v.len ≠ 0) && Machine.bufHasRoom v.maxFrameLen v.len
  | .tokDataOverflow _ => v.inside && decide (v.len ≠ 0) && Machine.bufIsFull v.maxFrameLen v.len
  | .tokDataDiscard _ => !v.inside && decide (v.len = 0)
  | .tokStart => true
  | .encodeHeader _ _ _ => true
  | .decodeHeader _ => true
  | .buildPrefix _ _ _ => true
  | .encodeHeaderDefault _ _ _ _ => true
  | .splitFrame _ => true
  | .unitselReserved5 => true
  | .unitselReserved67 _ => true
  | .hexdecDigit07 _ => true
  | .hexdecDigit89 _ => true
  | .hexdecUpperA => true
  | .hexdecUpperBC _ => true
  | .hexdecUpperDE _ => true
  | .hexdecUpperF => true
  | .hexdecLowerA => v.acceptLowercaseHex
  | .hexdecLowerBC _ => v.acceptLowercaseHex
  | .hexdecLowerDE _ => v.acceptLowercaseHex
  | .hexdecLowerF => v.acceptLowercaseHex
  | .hexdecInvalid c => !Machine.isHexByte v.acceptLowercaseHex c
  | .hexencDigit07 _ => true
  | .hexencDigit89 _ => true
  | .hexencLetter _ => true
  | .feed _ => true
  | .reset => true

/-! ## The opcode table as data (spec/opcode_table.json) -/

/-- The conditions of the table's rows: those of R71 on the state, that of the lower-case rows (R73); `always` for a row
without one. -/
inductive RowCond where
  | always | acceptsLowercase | insideLong | insideOne | outside | insideRoom | insideFull
  deriving DecidableEq, Repr

/-- R71, column "condition on state"; R73, "only when `ACCEPT_LOWERCASE_HEX` holds". -/
def RowCond.holds (v : SelectView) : RowCond → Bool
  | .always => true
  | .acceptsLowercase => v.acceptLowercaseHex
  | .insideLong => v.inside && decide (2 ≤ v.len)
  | .insideOne => v.inside && decide (v.len = 1)
  | .outside => !v.inside
  | .insideRoom => v.inside && Machine.bufHasRoom v.maxFrameLen v.len
  | .insideFull => v.inside && Machine.bufIsFull v.maxFrameLen v.len

/-- One row of spec/opcode_table.json: a word matches when `word & mask = pattern`. -/
structure Row where
  mnemonic : String
  port : Port
  pattern : Byte
  mask : Byte
  cond : RowCond
  deriving DecidableEq, Repr

/-- The table's row of each instruction. -/
def Instr.row : Instr → Row
  | .tokStart => ⟨"TOK.START", .rxByte, 0x3A, 0xFF, .always⟩
  | .tokEndEmit => ⟨"TOK.END.EMIT", .rxByte, 0x3B, 0xFF, .insideLong⟩
  | .tokEndNull => ⟨"TOK.END.NULL", .rxByte, 0x3B, 0xFF, .insideOne⟩
  | .tokEndStray => ⟨"TOK.END.STRAY", .rxByte, 0x3B, 0xFF, .outside⟩
  | .tokDataAppend _ => ⟨"TOK.DATA.APPEND", .rxByte, 0x00, 0x00, .insideRoom⟩
  | .tokDataOverflow _ => ⟨"TOK.DATA.OVERFLOW", .rxByte, 0x00, 0x00, .insideFull⟩
  | .tokDataDiscard _ => ⟨"TOK.DATA.DISCARD", .rxByte, 0x00, 0x00, .outside⟩
  | .encodeHeader _ _ _ => ⟨"ENCODE_HEADER", .unitSel, 0x0, 0x7, .always⟩
  | .decodeHeader _ => ⟨"DECODE_HEADER", .unitSel, 0x1, 0x7, .always⟩
  | .buildPrefix _ _ _ => ⟨"BUILD_PREFIX", .unitSel, 0x2, 0x7, .always⟩
  | .encodeHeaderDefault _ _ _ _ => ⟨"ENCODE_HEADER_DEFAULT", .unitSel, 0x3, 0x7, .always⟩
  | .splitFrame _ => ⟨"SPLIT_FRAME", .unitSel, 0x4, 0x7, .always⟩
  | .unitselReserved5 => ⟨"UNITSEL.RESERVED5", .unitSel, 0x5, 0x7, .always⟩
  | .unitselReserved67 _ => ⟨"UNITSEL.RESERVED6_7", .unitSel, 0x6, 0x6, .always⟩
  | .hexdecDigit07 _ => ⟨"HEXDEC.DIGIT_0_7", .hexChar, 0x30, 0xF8, .always⟩
  | .hexdecDigit89 _ => ⟨"HEXDEC.DIGIT_8_9", .hexChar, 0x38, 0xFE, .always⟩
  | .hexdecUpperA => ⟨"HEXDEC.UPPER_A", .hexChar, 0x41, 0xFF, .always⟩
  | .hexdecUpperBC _ => ⟨"HEXDEC.UPPER_B_C", .hexChar, 0x42, 0xFE, .always⟩
  | .hexdecUpperDE _ => ⟨"HEXDEC.UPPER_D_E", .hexChar, 0x44, 0xFE, .always⟩
  | .hexdecUpperF => ⟨"HEXDEC.UPPER_F", .hexChar, 0x46, 0xFF, .always⟩
  | .hexdecLowerA => ⟨"HEXDEC.LOWER_a", .hexChar, 0x61, 0xFF, .acceptsLowercase⟩
  | .hexdecLowerBC _ => ⟨"HEXDEC.LOWER_b_c", .hexChar, 0x62, 0xFE, .acceptsLowercase⟩
  | .hexdecLowerDE _ => ⟨"HEXDEC.LOWER_d_e", .hexChar, 0x64, 0xFE, .acceptsLowercase⟩
  | .hexdecLowerF => ⟨"HEXDEC.LOWER_f", .hexChar, 0x66, 0xFF, .acceptsLowercase⟩
  | .hexdecInvalid _ => ⟨"HEXDEC.INVALID", .hexChar, 0x00, 0x00, .always⟩
  | .hexencDigit07 _ => ⟨"HEXENC.DIGIT_0_7", .nibble, 0x0, 0x8, .always⟩
  | .hexencDigit89 _ => ⟨"HEXENC.DIGIT_8_9", .nibble, 0x8, 0xE, .always⟩
  | .hexencLetter _ => ⟨"HEXENC.LETTER", .nibble, 0x0, 0x0, .always⟩
  | .feed _ => ⟨"FEED", .chunk, 0x00, 0x00, .always⟩
  | .reset => ⟨"RESET", .signal, 0x1, 0x1, .always⟩

/-- The rows of `RXBYTE`, in the order of R71. -/
def rxByteRows : List Row :=
  [ Instr.tokStart.row, Instr.tokEndEmit.row, Instr.tokEndNull.row, Instr.tokEndStray.row
  , (Instr.tokDataAppend 0).row, (Instr.tokDataOverflow 0).row, (Instr.tokDataDiscard 0).row ]

/-- The rows of `UNITSEL`, R72. -/
def unitSelRows : List Row :=
  [ (Instr.encodeHeader 0 0 0).row, (Instr.decodeHeader []).row, (Instr.buildPrefix 0 0 0).row
  , (Instr.encodeHeaderDefault none none 0 0).row, (Instr.splitFrame []).row, Instr.unitselReserved5.row
  , (Instr.unitselReserved67 0).row ]

/-- The rows of `HEXCHAR`, in the table's order. -/
def hexCharRows : List Row :=
  [ (Instr.hexdecDigit07 0).row, (Instr.hexdecDigit89 0).row, Instr.hexdecUpperA.row, (Instr.hexdecUpperBC 0).row
  , (Instr.hexdecUpperDE 0).row, Instr.hexdecUpperF.row, Instr.hexdecLowerA.row, (Instr.hexdecLowerBC 0).row
  , (Instr.hexdecLowerDE 0).row, Instr.hexdecLowerF.row, (Instr.hexdecInvalid 0).row ]

/-- The rows of `NIBBLE`, in the table's order. -/
def nibbleRows : List Row := [(Instr.hexencDigit07 0).row, (Instr.hexencDigit89 0).row, (Instr.hexencLetter 0).row]

/-- spec/opcode_table.json, row by row in its order. -/
def opcodeTable : List Row :=
  rxByteRows ++ unitSelRows ++ hexCharRows ++ nibbleRows ++ [(Instr.feed []).row, Instr.reset.row]

/-- The port of a transaction. -/
def Transaction.port : Transaction → Port
  | .rxByte _ => .rxByte
  | .unitSel _ _ => .unitSel
  | .hexChar _ => .hexChar
  | .nibble _ => .nibble
  | .chunk _ => .chunk
  | .signal _ => .signal

/-- The word of a transaction that the table's `match` and `mask` are about, bit 0 least significant. `CHUNK` has none. -/
def Transaction.word : Transaction → Byte
  | .rxByte b => b
  | .unitSel op _ => op.setWidth 8
  | .hexChar c => c
  | .nibble n => n.setWidth 8
  | .chunk _ => 0
  | .signal level => level.setWidth 8

/-- R71: whether a row's pattern and condition both hold. -/
def Row.takes (v : SelectView) (t : Transaction) (r : Row) : Bool :=
  r.port == t.port && (t.word &&& r.mask) == r.pattern && r.cond.holds v

/-- R71, R73: "the first row whose byte pattern and condition both hold". -/
def firstRow (v : SelectView) (t : Transaction) : Option Row := opcodeTable.find? (Row.takes v t)

/-! ## The host's table words -/

/-- The view in which a table word is read: the tokenizer right after reset with an infinite MAX_FRAME_LEN, and
ACCEPT_LOWERCASE_HEX true, so that the words of the lower-case rows are those rows' (log entry 10). -/
def SelectView.forTableWord : SelectView :=
  { inside := false, len := 0, maxFrameLen := none, acceptLowercaseHex := true }

/-- The operand ports that go with a table word, whose row gives operands no bits: zeros, and for `SPLIT_FRAME` the frame
whose one content byte is zero, since its operand is marker-bounded by R160. -/
def tableOperands (op : BitVec 3) : UnitPorts :=
  if op = 4 then { UnitPorts.zero with bytes := [Config.START, 0, Config.END] } else UnitPorts.zero

/-- The transaction a word of spec/opcode_table.json stands for. The table does not write the port into the word, so the
port is read from the word's size and value (log entry 8): no bits is `CHUNK`; more than 8 bits is `HEXCHAR`; then unit
selects, nibbles with bit 3 set, markers, hex characters, and every other byte as a received byte. -/
def tableTransaction (nbits w : Nat) : Transaction :=
  let b : Byte := BitVec.ofNat 8 w
  if nbits = 0 then .chunk []
  else if 8 < nbits then .hexChar b
  else if b < 8 then .unitSel (b.extractLsb' 0 3) (tableOperands (b.extractLsb' 0 3))
  else if b < 16 then .nibble (b.extractLsb' 0 4)
  else if Machine.isHexByte true b then .hexChar b
  else .rxByte b

/-- The parameters with which a transaction selects its row: those given, but ACCEPT_LOWERCASE_HEX true for a lower-case
digit, which has a row of its own only there (R73; log entry 10). -/
def tableParams (t : Transaction) (p : Params) : Params :=
  match t with
  | .hexChar c =>
    if Machine.isHexByte true c && !Machine.isHexByte false c then { p with acceptLowercaseHex := true } else p
  | .rxByte _ => p
  | .unitSel _ _ => p
  | .nibble _ => p
  | .chunk _ => p
  | .signal _ => p

/-- What the decoder reads from a table word after reset; `none` where it refuses. -/
def decodeTableWord (nbits w : Nat) : Option Instr :=
  match decode SelectView.forTableWord (tableTransaction nbits w) with
  | .ok i => some i
  | .error _ => none

end Sys2Proof
end

