-- ==== Sys2Proof/Machine/State.lean ====
section
/-! DEFINITION. The state of the block as plain data (10_state.md R20 to R29), the outputs it has put out, the inputs not
yet consumed, the reasons a step can stop, and the machine right after reset. -/

namespace Sys2Proof.Machine

/-- The `TokenizerState` (R20, R22): the whole storage of the block. -/
structure Tokenizer where
  /-- R20: the accumulation buffer. -/
  buf : List Byte
  /-- R22: the "inside a frame" flag. -/
  inside : Bool
  deriving DecidableEq, Repr

/-- R27, R184: what the tokenizer puts on the frame output. -/
inductive Event where
  /-- A complete frame, both markers included (R45). -/
  | frame (f : List Byte)
  /-- A frame was begun and dropped for length (R184). -/
  | overflow
  deriving DecidableEq, Repr

/-- What one operation returns (R11, D12): a value, or an error kind in its place (R190). -/
inductive Result where
  /-- One tokenizer step: its emission, `none` where it emits nothing (R108). -/
  | emission (e : Option Event)
  /-- `FEED`: the emissions of its steps, in order (R109). -/
  | emissions (es : List Event)
  /-- `ENCODE_HEADER`, `ENCODE_HEADER_DEFAULT`: 4 bytes; `BUILD_PREFIX`: 7 bytes. -/
  | bytes (bs : List Byte)
  /-- `HEXENC`: one byte (R130). -/
  | char (c : Byte)
  /-- `HEXDEC`: `Some(n)`, or `none` for `Invalid` (R131). -/
  | nibble (n : Option Nibble)
  /-- `DECODE_HEADER`, `Ok` (R134). -/
  | header (h : HeaderFields)
  /-- `SPLIT_FRAME`, `Ok` (R161). -/
  | split (f : SplitFields)
  /-- `Err(kind)` (R180). -/
  | err (k : ErrKind)
  deriving DecidableEq, Repr

/-- The machine. `params` is no storage: no operation writes it (R8, R26; log entry 1). -/
structure State where
  /-- R7: the build-time parameters. -/
  params : Params
  /-- R20, R22: the tokenizer. -/
  tok : Tokenizer
  /-- R27: the frame output, oldest first, never revised. -/
  frameOut : List Event
  /-- The model's own (log entry 6): what the operation just performed returned. -/
  result : Option Result
  /-- R27, R47: what the host has delivered and the block has not consumed, oldest first (log entry 5). -/
  input : List Transaction
  deriving DecidableEq, Repr

/-- The block has no fault: errors are returned values (R190) and the tokenizer never fails (R108, R112). The type is
empty, which is safe: no step can answer with a fault. -/
inductive Fault where
  deriving DecidableEq, Repr

/-- Why a step has no meaning. Each is safe: the model stops where the spec gives it nothing to do. -/
inductive Refusal where
  /-- Raised by `exec` for an instruction without a meaning yet; safe. No arm raises it. -/
  | notModelled (mnemonic : String)
  /-- Raised by the two reserved unit-select rows (R79, U18); safe. -/
  | reservedUnitSelect (op : BitVec 3)
  /-- Raised by `SPLIT_FRAME` on a sequence that is no tokenizer-shaped frame (R160, U16); safe. -/
  | notAFrame
  /-- Raised by `step` and by `FEED` where a transaction selects no operation: a tokenizer state without a meaning (R23,
  U15), or a reset input that is not asserted; safe. -/
  | noOperation (why : DecodeError)
  /-- Raised by a tokenizer or hex operation performed on a state or operand that does not select it (R71, R73); safe, and
  no step raises it. -/
  | notSelected
  deriving DecidableEq, Repr

/-- R29, R210: outside a frame, an empty buffer, nothing emitted; nothing delivered and nothing returned yet (log entries
5, 6); the parameters of Config (log entries 2 to 4). -/
def State.reset : State :=
  { params := Config.buildParams
    tok := { buf := [], inside := false }
    frameOut := []
    result := none
    input := [] }

end Sys2Proof.Machine
end

