-- ==== Sys2Proof/Machine/Ops.lean ====
section
/-! DEFINITION. The named operations over the frame buffer (10_state.md R20, R27; 00_scope.md R11), over the output ports
(R45, R190), and over the input ports (R27, R47). -/

namespace Sys2Proof.Machine

/-! ## The frame buffer -/

/-- R11, R27: the byte of the buffer at an index, `none` past its end. -/
def Memory.read (buf : List Byte) (addr : Nat) : Option Byte := buf[addr]?

/-- R11: `MemRead(addr, n)`, that is `buf[addr..addr+n)`. -/
def Memory.readRange (buf : List Byte) (addr n : Nat) : List Byte := slice buf addr (addr + n)

/-- R20: append one byte at the end, at index `len(buf)`. -/
def Memory.append (buf : List Byte) (b : Byte) : List Byte := buf ++ [b]

/-- R20: clear the whole. -/
def Memory.clear : List Byte := []

/-- R27: overwrite the whole with `[START]`. -/
def Memory.restart : List Byte := [Config.START]

/-- R102: copy the whole out, closed by the end marker. -/
def Memory.close (buf : List Byte) : List Byte := buf ++ [Config.END]

/-- R21 (a), (b): the buffer is empty, or `START` followed by bytes that are no markers. -/
def Memory.wf : List Byte → Bool
  | [] => true
  | b :: d => b == Config.START && d.all isData

/-! ## The view selection takes of the state -/

/-- What selection reads of a tokenizer and the parameters (R71, R73). -/
def Tokenizer.view (p : Params) (t : Tokenizer) : SelectView :=
  { inside := t.inside, len := t.buf.length, maxFrameLen := p.maxFrameLen
    acceptLowercaseHex := p.acceptLowercaseHex }

/-- What selection reads of the state. -/
def State.view (s : State) : SelectView := s.tok.view s.params

/-! ## Outputs -/

/-- R11: `return Ok(v)`: an operation ends with a result and changes nothing else. -/
def State.answer (s : State) (r : Result) : State := { s with result := some r }

/-- R11, R190: `raise kind`, which is `return Err(kind)`. This is the whole of taking an error: nothing is saved, no mode
changes, no state of the block changes, control goes nowhere; there is no return from it (R192). -/
def State.raise (s : State) (k : ErrKind) : State := s.answer (.err k)

/-- R190: "a result is one of `Ok` or `Err`, never both". -/
def State.conclude {α : Type} (s : State) (ok : α → Result) (r : Except ErrKind α) : State :=
  match r with
  | .ok a => s.answer (ok a)
  | .error k => s.raise k

/-- R11, R45: the tokenizer's new state and its emission, together at the end of one operation. -/
def State.emit (s : State) (t : Tokenizer) (e : Option Event) : State :=
  { s with tok := t, frameOut := s.frameOut ++ e.toList, result := some (.emission e) }

/-- R109: the tokenizer's state after a chunk and the emissions of its steps, in order. -/
def State.emitAll (s : State) (t : Tokenizer) (es : List Event) : State :=
  { s with tok := t, frameOut := s.frameOut ++ es, result := some (.emissions es) }

/-- R180, D10: the 3-bit code of an error kind. -/
def errCode : ErrKind → BitVec 3
  | .tooShort => 1
  | .unsupportedFrameType => 2
  | .malformedHeader => 3
  | .unknownOpcode => 4
  | .invalidAddress => 5
  | .connectionError => 6
  | .connectionLost => 7

/-- R180: the `err` port of a result; 0 is `Ok`. -/
def Result.errPort : Result → BitVec 3
  | .err k => errCode k
  | .emission _ => 0
  | .emissions _ => 0
  | .bytes _ => 0
  | .char _ => 0
  | .nibble _ => 0
  | .header _ => 0
  | .split _ => 0

/-! ## Inputs -/

/-- R47, R215: the host delivers one transaction, behind those not yet consumed. -/
def State.deliver (s : State) (t : Transaction) : State := { s with input := s.input ++ [t] }

/-- R44, R47: consume the oldest delivery; it is gone and cannot be read again. -/
def State.consume (s : State) : State := { s with input := s.input.tail }

end Sys2Proof.Machine
end

