-- ==== Sys2Proof/Machine/FrameSplit.lean ====
section
/-! DEFINITION. The meanings of `SPLIT_FRAME` (42_frame_split.md R160 to R165) and of the reserved unit-select codes
(30_encoding.md R79). -/

namespace Sys2Proof.Machine

/-- `SPLIT_FRAME`, R161; "for a byte sequence that is not of that shape the spec gives `SPLIT_FRAME` no meaning; a model
refuses it" (R160). A frame longer than a finite MAX_FRAME_LEN is cut like any other (log entry 20). -/
def execSplitFrame (frame : List Byte) (s : State) : Host.Outcome State Fault Refusal :=
  if isFrame frame then .next (s.conclude .split (splitFields s.params frame)) else .refused .notAFrame

/-- `UNITSEL.RESERVED5`, R79: "a model refuses them (they select no operation)". -/
def execUnitselReserved5 (_s : State) : Host.Outcome State Fault Refusal := .refused (.reservedUnitSelect 5)

/-- `UNITSEL.RESERVED6_7`, R79: "a model refuses them (they select no operation)". -/
def execUnitselReserved67 (low : BitVec 1) (_s : State) : Host.Outcome State Fault Refusal :=
  .refused (.reservedUnitSelect (0b11#2 ++ low))

end Sys2Proof.Machine
end

