-- ==== Sys2Proof/Machine/HeaderCodec.lean ====
section
/-! DEFINITION. The meanings of the HeaderCodec's operations (41_header_codec.md R133, R134, R136, R137). Each answers a
result or an error kind and changes nothing else (R139, R190). -/

namespace Sys2Proof.Machine

/-- `ENCODE_HEADER`, R133. -/
def execEncodeHeader (major minor : Prio) (busAddress : BusAddr) (s : State) : Host.Outcome State Fault Refusal :=
  .next (s.answer (.bytes (encodeHeaderText major minor busAddress)))

/-- `DECODE_HEADER`, R134. -/
def execDecodeHeader (text : List Byte) (s : State) : Host.Outcome State Fault Refusal :=
  .next (s.conclude .header (decodeHeaderText s.params.acceptLowercaseHex text))

/-- `BUILD_PREFIX`, R136. -/
def execBuildPrefix (major minor : Prio) (busAddress : BusAddr) (s : State) : Host.Outcome State Fault Refusal :=
  .next (s.answer (.bytes (prefixText s.params.typeTagStd major minor busAddress)))

/-- `ENCODE_HEADER_DEFAULT`, R137. -/
def execEncodeHeaderDefault (major minor : Option Prio) (opcode : Byte) (busAddress : BusAddr) (s : State) :
    Host.Outcome State Fault Refusal :=
  .next (s.conclude .bytes (encodeHeaderDefaultText s.params major minor opcode busAddress))

end Sys2Proof.Machine
end

