-- ==== Sys2Proof/Machine/HexCodec.lean ====
section
/-! DEFINITION. The meanings of the character primitives, one per row of spec/opcode_table.json: `HEXDEC` (41_header_codec.md
R131) and `HEXENC` (R130). Each answers and changes nothing else (R139). -/

namespace Sys2Proof.Machine

/-- `HEXDEC` answers `Some(n)` for the low four bits of a value the row keeps below 16. -/
def answerNibble (v : Byte) (s : State) : Host.Outcome State Fault Refusal :=
  .next (s.answer (.nibble (some (v.setWidth 4))))

/-- A lower-case row answers its value; it applies only when ACCEPT_LOWERCASE_HEX holds, and where it does not the byte
selects `HEXDEC.INVALID` and never this row (R73; log entry 12). -/
def answerLowercase (v : Byte) (s : State) : Host.Outcome State Fault Refusal :=
  if s.params.acceptLowercaseHex then answerNibble v s else .refused .notSelected

/-- `HEXDEC.DIGIT_0_7`: `c - 0x30`. -/
def execHexdecDigit07 (d : BitVec 3) (s : State) : Host.Outcome State Fault Refusal :=
  answerNibble (rowByte 0x30 d - 0x30) s

/-- `HEXDEC.DIGIT_8_9`: `c - 0x30`. -/
def execHexdecDigit89 (d : BitVec 1) (s : State) : Host.Outcome State Fault Refusal :=
  answerNibble (rowByte 0x38 d - 0x30) s

/-- `HEXDEC.UPPER_A`: 10. -/
def execHexdecUpperA (s : State) : Host.Outcome State Fault Refusal := answerNibble 10 s

/-- `HEXDEC.UPPER_B_C`: `c - 0x41 + 10`. -/
def execHexdecUpperBC (d : BitVec 1) (s : State) : Host.Outcome State Fault Refusal :=
  answerNibble (rowByte 0x42 d - 0x41 + 10) s

/-- `HEXDEC.UPPER_D_E`: `c - 0x41 + 10`. -/
def execHexdecUpperDE (d : BitVec 1) (s : State) : Host.Outcome State Fault Refusal :=
  answerNibble (rowByte 0x44 d - 0x41 + 10) s

/-- `HEXDEC.UPPER_F`: 15. -/
def execHexdecUpperF (s : State) : Host.Outcome State Fault Refusal := answerNibble 15 s

/-- `HEXDEC.LOWER_a`: 10. -/
def execHexdecLowerA (s : State) : Host.Outcome State Fault Refusal := answerLowercase 10 s

/-- `HEXDEC.LOWER_b_c`: `c - 0x61 + 10`. -/
def execHexdecLowerBC (d : BitVec 1) (s : State) : Host.Outcome State Fault Refusal :=
  answerLowercase (rowByte 0x62 d - 0x61 + 10) s

/-- `HEXDEC.LOWER_d_e`: `c - 0x61 + 10`. -/
def execHexdecLowerDE (d : BitVec 1) (s : State) : Host.Outcome State Fault Refusal :=
  answerLowercase (rowByte 0x64 d - 0x61 + 10) s

/-- `HEXDEC.LOWER_f`: 15. -/
def execHexdecLowerF (s : State) : Host.Outcome State Fault Refusal := answerLowercase 15 s

/-- `HEXDEC.INVALID`: `Invalid`, of a byte that no earlier row takes, a lower-case digit among them where
ACCEPT_LOWERCASE_HEX is false (R73). -/
def execHexdecInvalid (c : Byte) (s : State) : Host.Outcome State Fault Refusal :=
  if isHexByte s.params.acceptLowercaseHex c then .refused .notSelected else .next (s.answer (.nibble none))

/-- `HEXENC.DIGIT_0_7`: `0x30 + n`. -/
def execHexencDigit07 (d : BitVec 3) (s : State) : Host.Outcome State Fault Refusal :=
  .next (s.answer (.char (0x30 + d.setWidth 8)))

/-- `HEXENC.DIGIT_8_9`: `0x30 + n`. -/
def execHexencDigit89 (d : BitVec 1) (s : State) : Host.Outcome State Fault Refusal :=
  .next (s.answer (.char (0x30 + rowByte 0x08 d)))

/-- `HEXENC.LETTER`: `0x41 + n - 10`, of a nibble that no earlier row takes. -/
def execHexencLetter (n : Nibble) (s : State) : Host.Outcome State Fault Refusal :=
  if 10 ≤ n then .next (s.answer (.char (0x41 + (n.setWidth 8 - 10)))) else .refused .notSelected

end Sys2Proof.Machine
end

