-- ==== Sys2Proof/Machine/Flags.lean ====
section
/-! DEFINITION. What each tokenizer operation does to the flag `inside`, to `buf` and to the frame output (40_tokenizer.md
R100), and the tokenizer step made of them (R108, R109). -/

namespace Sys2Proof.Machine

/-- R22, R100: the flag after an operation. -/
def insideAfter (op : TokOp) (inside : Bool) : Bool :=
  match op with
  | .start => true
  | .endEmit => false
  | .endNull => false
  | .endStray => inside
  | .append => inside
  | .overflow => false
  | .discard => inside

/-- R20, R100: the buffer after an operation on a byte. -/
def bufAfter (op : TokOp) (b : Byte) (buf : List Byte) : List Byte :=
  match op with
  | .start => Memory.restart
  | .endEmit => Memory.clear
  | .endNull => Memory.clear
  | .endStray => buf
  | .append => Memory.append buf b
  | .overflow => Memory.clear
  | .discard => buf

/-- R100: the emission of an operation, from the buffer before it. -/
def emissionOf (op : TokOp) (buf : List Byte) : Option Event :=
  match op with
  | .start => none
  | .endEmit => some (.frame (Memory.close buf))
  | .endNull => none
  | .endStray => none
  | .append => none
  | .overflow => some .overflow
  | .discard => none

/-- The tokenizer after an operation: all reads see the state before it (R11). -/
def tokAfter (op : TokOp) (b : Byte) (t : Tokenizer) : Tokenizer :=
  { buf := bufAfter op b t.buf, inside := insideAfter op t.inside }

/-- R108: one step of the tokenizer on one byte; `none` only in a state the spec gives no meaning (U15). -/
def tokStep (p : Params) (t : Tokenizer) (b : Byte) : Option (Tokenizer × Option Event) :=
  match selectTok (t.view p) b with
  | some op => some (tokAfter op b t, emissionOf op t.buf)
  | none => none

/-- R109: one step per byte, in order, collecting the emissions. -/
def feedBytes (p : Params) : List Byte → Tokenizer → Option (Tokenizer × List Event)
  | [], t => some (t, [])
  | b :: rest, t =>
    match tokStep p t b with
    | none => none
    | some (t', e) =>
      match feedBytes p rest t' with
      | none => none
      | some (t'', es) => some (t'', e.toList ++ es)

/-- Perform a tokenizer operation on the byte that selects it (R71). -/
def runTok (op : TokOp) (b : Byte) (s : State) : Host.Outcome State Fault Refusal :=
  if selectTok s.view b = some op then .next (s.emit (tokAfter op b s.tok) (emissionOf op s.tok.buf))
  else .refused .notSelected

end Sys2Proof.Machine
end

