-- ==== Sys2Proof/Machine/Tokenizer.lean ====
section
/-! DEFINITION. The meanings of the FrameTokenizer's operations (40_tokenizer.md R101 to R107, R109) and of `RESET`
(70_reset_and_hazards.md R210). -/

namespace Sys2Proof.Machine

/-- `TOK.START`, R101: `buf <- [START]`, `inside <- 1`, whatever the state was. -/
def execTokStart (s : State) : Host.Outcome State Fault Refusal := runTok .start Config.START s

/-- `TOK.END.EMIT`, R102: emit `Frame(buf ++ [END])`, `buf <- []`, `inside <- 0`. -/
def execTokEndEmit (s : State) : Host.Outcome State Fault Refusal := runTok .endEmit Config.END s

/-- `TOK.END.NULL`, R103 and decision D4: `buf <- []`, `inside <- 0`, nothing emitted. -/
def execTokEndNull (s : State) : Host.Outcome State Fault Refusal := runTok .endNull Config.END s

/-- `TOK.END.STRAY`, R104: the byte is discarded. -/
def execTokEndStray (s : State) : Host.Outcome State Fault Refusal := runTok .endStray Config.END s

/-- `TOK.DATA.APPEND`, R105: `buf <- buf ++ [b]`. -/
def execTokDataAppend (b : Byte) (s : State) : Host.Outcome State Fault Refusal := runTok .append b s

/-- `TOK.DATA.OVERFLOW`, R106 and decision D5: emit `Overflow`, `buf <- []`, `inside <- 0`. -/
def execTokDataOverflow (b : Byte) (s : State) : Host.Outcome State Fault Refusal := runTok .overflow b s

/-- `TOK.DATA.DISCARD`, R107: the byte is discarded. -/
def execTokDataDiscard (b : Byte) (s : State) : Host.Outcome State Fault Refusal := runTok .discard b s

/-- `FEED`, R109: the steps of the chunk's bytes, in order, as one operation. -/
def execFeed (chunk : List Byte) (s : State) : Host.Outcome State Fault Refusal :=
  match feedBytes s.params chunk s.tok with
  | some (t, es) => .next (s.emitAll t es)
  | none => .refused (.noOperation .unreachableState)

/-- `RESET`, R210: `buf <- []`, `inside <- 0`, no emission; frames already emitted are not affected (log entry 7). -/
def execReset (s : State) : Host.Outcome State Fault Refusal :=
  .next { s with tok := { buf := Memory.clear, inside := false }, result := none }

end Sys2Proof.Machine
end

