-- ==== Sys2Proof/Machine/Dispatch.lean ====
section
/-! DEFINITION. The dispatch: one arm per row of spec/opcode_table.json, each one call of its meaning. -/

namespace Sys2Proof.Machine

def exec (i : Instr) (s : State) : Host.Outcome State Fault Refusal :=
  match i with
  | .tokStart => Sys2Proof.Machine.execTokStart s
  | .tokEndEmit => Sys2Proof.Machine.execTokEndEmit s
  | .tokEndNull => Sys2Proof.Machine.execTokEndNull s
  | .tokEndStray => Sys2Proof.Machine.execTokEndStray s
  | .tokDataAppend b => Sys2Proof.Machine.execTokDataAppend b s
  | .tokDataOverflow b => Sys2Proof.Machine.execTokDataOverflow b s
  | .tokDataDiscard b => Sys2Proof.Machine.execTokDataDiscard b s
  | .encodeHeader major minor busAddress => Sys2Proof.Machine.execEncodeHeader major minor busAddress s
  | .decodeHeader text => Sys2Proof.Machine.execDecodeHeader text s
  | .buildPrefix major minor busAddress => Sys2Proof.Machine.execBuildPrefix major minor busAddress s
  | .encodeHeaderDefault major minor opcode busAddress => Sys2Proof.Machine.execEncodeHeaderDefault major minor opcode busAddress s
  | .splitFrame frame => Sys2Proof.Machine.execSplitFrame frame s
  | .unitselReserved5 => Sys2Proof.Machine.execUnitselReserved5 s
  | .unitselReserved67 low => Sys2Proof.Machine.execUnitselReserved67 low s
  | .hexdecDigit07 d => Sys2Proof.Machine.execHexdecDigit07 d s
  | .hexdecDigit89 d => Sys2Proof.Machine.execHexdecDigit89 d s
  | .hexdecUpperA => Sys2Proof.Machine.execHexdecUpperA s
  | .hexdecUpperBC d => Sys2Proof.Machine.execHexdecUpperBC d s
  | .hexdecUpperDE d => Sys2Proof.Machine.execHexdecUpperDE d s
  | .hexdecUpperF => Sys2Proof.Machine.execHexdecUpperF s
  | .hexdecLowerA => Sys2Proof.Machine.execHexdecLowerA s
  | .hexdecLowerBC d => Sys2Proof.Machine.execHexdecLowerBC d s
  | .hexdecLowerDE d => Sys2Proof.Machine.execHexdecLowerDE d s
  | .hexdecLowerF => Sys2Proof.Machine.execHexdecLowerF s
  | .hexdecInvalid c => Sys2Proof.Machine.execHexdecInvalid c s
  | .hexencDigit07 d => Sys2Proof.Machine.execHexencDigit07 d s
  | .hexencDigit89 d => Sys2Proof.Machine.execHexencDigit89 d s
  | .hexencLetter n => Sys2Proof.Machine.execHexencLetter n s
  | .feed chunk => Sys2Proof.Machine.execFeed chunk s
  | .reset => Sys2Proof.Machine.execReset s

end Sys2Proof.Machine
end

