-- ==== Sys2Proof/Machine/Step.lean ====
section
/-! DEFINITION. One step of the block (40_tokenizer.md R108, 70_reset_and_hazards.md R223): consume the oldest delivery and
perform the operation it selects; and how the host places an instruction in front of a state. -/

namespace Sys2Proof.Machine

/-- One step. With nothing delivered the block keeps its state (R216, R194; log entry 5). -/
def step (s : State) : Host.Outcome State Fault Refusal :=
  match s.input with
  | [] => .next s
  | t :: _ =>
    match decode s.view t with
    | .ok i => exec i s.consume
    | .error why => .refused (.noOperation why)

/-- The state with a table word in front of its deliveries, at the port `tableTransaction` reads from the word (log entry
8) and with the parameters that select its row (log entry 10), so that the very next step performs it. -/
def State.withFetchWord (s : State) (nbits w : Nat) : State :=
  { s with
    params := tableParams (tableTransaction nbits w) s.params
    input := tableTransaction nbits w :: s.input }

end Sys2Proof.Machine
end

