-- ==== Sys2Proof/Machine/System.lean ====
section
/-! DEFINITION. Several instances (60_exceptions.md R195): a system with k connections has k independent copies of the
state, each fed on its own. -/

namespace Sys2Proof.Machine

/-- R195: the states of the instances, by position; the block itself gives them no identifier. -/
abbrev System := List State

/-- One instance takes a step; a position without an instance changes nothing. -/
def System.stepAt (k : Nat) (sys : System) : Host.Outcome System Fault Refusal :=
  match sys[k]? with
  | none => .next sys
  | some s =>
    match step s with
    | .next s' => .next (sys.set k s')
    | .fault r => .fault r
    | .refused r => .refused r

end Sys2Proof.Machine
end

