-- ==== Sys2Proof/Safety.lean ====
section
/-! DEFINITION. What a good state and a safe delivery are: the invariants of 10_state.md R21 and R23, the shape of every
emitted event (40_tokenizer.md R113, 60_exceptions.md R184), and the deliveries the spec gives a meaning. -/

namespace Sys2Proof

/-- The deliveries that select an operation with a meaning in every reachable state: no reserved unit select (R79), a frame
of any length for `SPLIT_FRAME` (R160, log entry 20), an asserted reset. -/
def Transaction.hasMeaning : Transaction → Bool
  | .rxByte _ => true
  | .unitSel op x => decide (op < 5) && (op != 4 || Machine.isFrame x.bytes)
  | .hexChar _ => true
  | .nibble _ => true
  | .chunk _ => true
  | .signal level => level == 1

namespace Machine

/-- R21, R23: the reachable tokenizer states. -/
def Tokenizer.inv (p : Params) (t : Tokenizer) : Bool :=
  Memory.wf t.buf && bufFits p.maxFrameLen t.buf.length && (t.inside == !t.buf.isEmpty)

/-- R113: an emitted frame has the frame shape and fits MAX_FRAME_LEN; R184: `Overflow` only when MAX_FRAME_LEN is finite. -/
def Event.ok (p : Params) : Event → Bool
  | .frame f => isFrame f && frameFits p.maxFrameLen f.length
  | .overflow => p.maxFrameLen.isSome

/-- The invariant of the block: legal parameters (R7), a reachable tokenizer (R21, R23), well-shaped outputs (R113, R184). -/
abbrev State.Inv (s : State) : Prop :=
  s.params.wf = true ∧ s.tok.inv s.params = true ∧ s.frameOut.all (Event.ok s.params) = true

/-- A run is safe while it goes on: no step of it is a refusal (there is no fault). -/
def goesOn {σ φ ρ : Type} : Host.Outcome σ φ ρ → Bool
  | .next _ => true
  | .fault _ => false
  | .refused _ => false

end Machine

end Sys2Proof
end

