-- ==== Sys2Proof/Certificates/Slice0/Obligations.lean ====
section
/-! DEFINITION. The statements for the provers, each a def Obligations.<Name> : Prop, and the rules' own arithmetic they are
stated with (Rules.…), written over Nat so that no statement restates the model's bit-vector code. -/

open Sys2Proof Sys2Proof.Machine

namespace Sys2Proof.Rules

/-- R131: the value of a hex character, `none` for `Invalid`; the flag is ACCEPT_LOWERCASE_HEX. -/
def hexValue (lowercase : Bool) (c : Byte) : Option Nat :=
  if 0x30 ≤ c.toNat ∧ c.toNat ≤ 0x39 then some (c.toNat - 0x30)
  else if 0x41 ≤ c.toNat ∧ c.toNat ≤ 0x46 then some (c.toNat - 0x41 + 10)
  else if lowercase = true ∧ 0x61 ≤ c.toNat ∧ c.toNat ≤ 0x66 then some (c.toNat - 0x61 + 10)
  else none

/-- R130: the character of a nibble. -/
def hexChar (n : Nat) : Byte :=
  if n ≤ 9 then BitVec.ofNat 8 (0x30 + n) else BitVec.ofNat 8 (0x41 + (n - 10))

/-- R132, R133: `(major << 14) | (minor << 12) | (bus_address << 5)` as a sum of fields that do not overlap. -/
def packed (major minor : Prio) (busAddress : BusAddr) : Nat :=
  major.toNat * 2 ^ 14 + minor.toNat * 2 ^ 12 + busAddress.toNat * 2 ^ 5

/-- R133: `[HEXENC(v[15:12]), HEXENC(v[11:8]), HEXENC(v[7:4]), HEXENC(v[3:0])]`. -/
def headerText (v : Nat) : List Byte :=
  [hexChar (v / 2 ^ 12 % 16), hexChar (v / 2 ^ 8 % 16), hexChar (v / 2 ^ 4 % 16), hexChar (v % 16)]

/-- R134: the value of four hex characters, `none` for another length or a byte that is no hex character. -/
def textValue (lowercase : Bool) : List Byte → Option Nat
  | [c0, c1, c2, c3] =>
    match hexValue lowercase c0, hexValue lowercase c1, hexValue lowercase c2, hexValue lowercase c3 with
    | some n0, some n1, some n2, some n3 => some (n0 * 2 ^ 12 + n1 * 2 ^ 8 + n2 * 2 ^ 4 + n3)
    | _, _, _, _ => none
  | _ => none

/-- R134: `major = v[15:14], minor = v[13:12], bus_address = v[11:5]`. -/
def fields (v : Nat) : HeaderFields :=
  { major := BitVec.ofNat 2 (v / 2 ^ 14), minor := BitVec.ofNat 2 (v / 2 ^ 12 % 4)
    busAddress := BitVec.ofNat 7 (v / 2 ^ 5 % 128) }

/-- R113: the shape of an emitted frame. -/
def frameShape (maxFrameLen : Option Nat) (f : List Byte) : Prop :=
  3 ≤ f.length ∧ (∀ m, maxFrameLen = some m → f.length ≤ m) ∧
  f[0]? = some 0x3A ∧ f[f.length - 1]? = some 0x3B ∧
  ∀ i x, 0 < i → i < f.length - 1 → f[i]? = some x → x ≠ 0x3A ∧ x ≠ 0x3B

/-- R72's column of inputs: the two sets of operand ports agree on every port the unit select reads. Of an optional
argument the presence line is read, and the value where it is present (log entry 9). -/
def agreeWhereRead (op : BitVec 3) (x y : UnitPorts) : Prop :=
  (op = 0 ∨ op = 2 → x.major = y.major ∧ x.minor = y.minor ∧ x.busAddress = y.busAddress) ∧
  (op = 1 ∨ op = 4 → x.bytes = y.bytes) ∧
  (op = 3 → x.majorGiven = y.majorGiven ∧ (x.majorGiven = true → x.major = y.major) ∧
    x.minorGiven = y.minorGiven ∧ (x.minorGiven = true → x.minor = y.minor) ∧
    x.opcode = y.opcode ∧ x.busAddress = y.busAddress)

/-- R23, R210: the state `OUTSIDE`. -/
def outside : Tokenizer := { buf := [], inside := false }

end Sys2Proof.Rules

/-! ## Fetching, decoding, encoding -/

/-- A sanity check: words written out from the tables of R64, R65, R71, R72 and the table's RESET row decode to their
instructions; 0x66 is `HEXDEC.LOWER_f` where ACCEPT_LOWERCASE_HEX holds and falls through to `HEXDEC.INVALID` where it does
not (R73). The unit-select numbers are the spec's own decision D12, what counts as a hex digit its D7, the words at a full
buffer and after a lone start marker its D5 and D4 (log entry 14). -/
def Obligations.SpecWordsDecodeToTheirInstructions : Prop :=
  decode ⟨false, 0, none, false⟩ (.rxByte 0b00111010) = .ok .tokStart ∧
  decode ⟨true, 4, none, false⟩ (.rxByte 0b00111011) = .ok .tokEndEmit ∧
  decode ⟨true, 1, none, false⟩ (.rxByte 0b00111011) = .ok .tokEndNull ∧
  decode ⟨false, 0, none, false⟩ (.rxByte 0b00111011) = .ok .tokEndStray ∧
  decode ⟨true, 7, some 8, false⟩ (.rxByte 0x37) = .ok (.tokDataOverflow 0x37) ∧
  decode ⟨true, 6, some 8, false⟩ (.rxByte 0x36) = .ok (.tokDataAppend 0x36) ∧
  decode ⟨false, 0, none, false⟩ (.hexChar 0b00110111) = .ok (.hexdecDigit07 0b111) ∧
  decode ⟨false, 0, none, false⟩ (.hexChar 0b01000011) = .ok (.hexdecUpperBC 0b1) ∧
  decode ⟨false, 0, none, true⟩ (.hexChar 0b01100110) = .ok .hexdecLowerF ∧
  decode ⟨false, 0, none, false⟩ (.hexChar 0b01100110) = .ok (.hexdecInvalid 0x66) ∧
  decode ⟨false, 0, none, false⟩ (.hexChar 0b00111010) = .ok (.hexdecInvalid 0x3A) ∧
  decode ⟨false, 0, none, false⟩ (.nibble 0b1011) = .ok (.hexencLetter 11) ∧
  decode ⟨false, 0, none, false⟩ (.unitSel 0b111 UnitPorts.zero) = .ok (.unitselReserved67 0b1) ∧
  decode ⟨false, 0, none, false⟩ (.signal 0b1) = .ok .reset

/-- A step is the operation the oldest delivery selects, with that delivery consumed. R44 and R47 say so of received bytes;
that the deliveries at all ports wait in one line, of which a step consumes the oldest, is the model's choice (log entry 5). -/
def Obligations.StepRunsTheDecodedInstruction : Prop :=
  ∀ (s : State) (x : Transaction) (rest : List Transaction) (i : Instr),
    s.input = x :: rest → decode s.view x = .ok i → step s = exec i { s with input := rest }

/-- The model's choice (log entry 5): with nothing delivered a step changes nothing. -/
def Obligations.IdleStepKeepsTheState : Prop :=
  ∀ s : State, s.input = [] → step s = .next s

/-- Decoding undoes encoding, for every well-formed instruction with every operand, in every tokenizer view whose condition
(R71) selects it. -/
def Obligations.DecodeOfEncodeIsTheInstruction : Prop :=
  ∀ (v : SelectView) (i : Instr), i.wf = true → i.selectedIn v = true → decode v (encode i) = .ok i

/-- The other direction: encoding what was decoded gives the delivery back, but for operand ports the unit select does not
read (which ports those are beside R72's table, the two presence lines and the value behind a presence line that is off, is
the model's choice, log entry 9); the encoding decodes to the same instruction again; and what was decoded is selected, and
well formed unless it is `SPLIT_FRAME` of no frame. -/
def Obligations.EncodeOfDecodeIsTheDelivery : Prop :=
  ∀ (v : SelectView) (x : Transaction) (i : Instr), decode v x = .ok i →
    (encode i).port = x.port ∧ (encode i).word = x.word ∧ i.selectedIn v = true ∧
    (x.port ≠ .unitSel → encode i = x) ∧
    (∀ op p, x = .unitSel op p → ∃ p', encode i = .unitSel op p' ∧ Rules.agreeWhereRead op p p') ∧
    decode v (encode i) = .ok i ∧ (i.wf = true ∨ ∃ f, i = .splitFrame f ∧ isFrame f = false)

/-- Selection follows the opcode table: in every view the spec gives a meaning (R23), the decoded instruction's row is the
first row of the table, in its order, whose pattern and condition hold (the lower-case rows only where
ACCEPT_LOWERCASE_HEX does, R73), and none is decoded where no row holds. -/
def Obligations.DecodeTakesTheFirstMatchingRow : Prop :=
  ∀ (v : SelectView) (x : Transaction), v.coherent = true →
    (decode v x).toOption.map Instr.row = firstRow v x

/-- R71's table, row by row, and that some row always holds, in every state that satisfies R21 and R23. -/
def Obligations.TokenizerSelectionFollowsTheTable : Prop :=
  ∀ (s : State) (b : Byte), s.tok.inv s.params = true →
    (b = 0x3A → decode s.view (.rxByte b) = .ok .tokStart) ∧
    (b = 0x3B → s.tok.inside = true → 2 ≤ s.tok.buf.length → decode s.view (.rxByte b) = .ok .tokEndEmit) ∧
    (b = 0x3B → s.tok.inside = true → s.tok.buf.length = 1 → decode s.view (.rxByte b) = .ok .tokEndNull) ∧
    (b = 0x3B → s.tok.inside = false → decode s.view (.rxByte b) = .ok .tokEndStray) ∧
    (b ≠ 0x3A → b ≠ 0x3B → s.tok.inside = true →
      (∀ m, s.params.maxFrameLen = some m → s.tok.buf.length < m - 1) →
      decode s.view (.rxByte b) = .ok (.tokDataAppend b)) ∧
    (b ≠ 0x3A → b ≠ 0x3B → s.tok.inside = true → s.params.maxFrameLen = some (s.tok.buf.length + 1) →
      decode s.view (.rxByte b) = .ok (.tokDataOverflow b)) ∧
    (b ≠ 0x3A → b ≠ 0x3B → s.tok.inside = false → decode s.view (.rxByte b) = .ok (.tokDataDiscard b)) ∧
    ∃ i, decode s.view (.rxByte b) = .ok i

/-! ## The seven tokenizer operations: result, flag, emission and frame (everything else is unchanged) -/

/-- R101, from any state, as an operation and as the step a received `:` makes. -/
def Obligations.TokStartRestartsTheBuffer : Prop :=
  ∀ s : State,
    exec .tokStart s =
      .next { s with tok := { buf := [0x3A], inside := true }, result := some (.emission none) } ∧
    ∀ rest, s.input = .rxByte 0x3A :: rest →
      step s = .next { s with tok := { buf := [0x3A], inside := true }, result := some (.emission none), input := rest }

/-- R102, as an operation and as the step a received `;` makes. -/
def Obligations.TokEndEmitPutsOutTheFrame : Prop :=
  ∀ s : State, s.tok.inside = true → 2 ≤ s.tok.buf.length →
    exec .tokEndEmit s =
      .next { s with
        tok := Rules.outside, frameOut := s.frameOut ++ [.frame (s.tok.buf ++ [0x3B])]
        result := some (.emission (some (.frame (s.tok.buf ++ [0x3B])))) } ∧
    ∀ rest, s.input = .rxByte 0x3B :: rest →
      step s = .next { s with
        tok := Rules.outside, frameOut := s.frameOut ++ [.frame (s.tok.buf ++ [0x3B])]
        result := some (.emission (some (.frame (s.tok.buf ++ [0x3B])))), input := rest }

/-- R103; the next state is the spec's own decision D4 (log entry 14). -/
def Obligations.TokEndNullLeavesTheFrameSilently : Prop :=
  ∀ s : State, s.tok.inside = true → s.tok.buf.length = 1 →
    exec .tokEndNull s = .next { s with tok := Rules.outside, result := some (.emission none) } ∧
    ∀ rest, s.input = .rxByte 0x3B :: rest →
      step s = .next { s with tok := Rules.outside, result := some (.emission none), input := rest }

/-- R104, in state `OUTSIDE`. -/
def Obligations.TokEndStrayChangesNothing : Prop :=
  ∀ s : State, s.tok = Rules.outside →
    exec .tokEndStray s = .next { s with result := some (.emission none) } ∧
    ∀ rest, s.input = .rxByte 0x3B :: rest →
      step s = .next { s with result := some (.emission none), input := rest }

/-- R105: the byte is stored at index `len(buf)`, earlier bytes are not touched, the flag stays. -/
def Obligations.TokDataAppendStoresTheByte : Prop :=
  ∀ (s : State) (b : Byte), b ≠ 0x3A → b ≠ 0x3B → s.tok.inside = true → s.tok.buf ≠ [] →
    (∀ m, s.params.maxFrameLen = some m → s.tok.buf.length < m - 1) →
    ∃ t, exec (.tokDataAppend b) s = .next t ∧
      t = { s with tok := { buf := t.tok.buf, inside := true }, result := some (.emission none) } ∧
      t.tok.buf = s.tok.buf ++ [b] ∧
      Memory.read t.tok.buf s.tok.buf.length = some b ∧
      (∀ a, a ≠ s.tok.buf.length → Memory.read t.tok.buf a = Memory.read s.tok.buf a) ∧
      ∀ rest, s.input = .rxByte b :: rest → step s = .next { t with input := rest }

/-- R106, the spec's own decision D5: a data byte with no room drops the partial frame and emits `Overflow`. -/
def Obligations.TokDataOverflowDropsTheFrame : Prop :=
  ∀ (s : State) (b : Byte) (m : Nat), b ≠ 0x3A → b ≠ 0x3B → s.tok.inside = true → s.tok.buf ≠ [] →
    s.params.maxFrameLen = some m → s.tok.buf.length = m - 1 →
    exec (.tokDataOverflow b) s =
      .next { s with
        tok := Rules.outside, frameOut := s.frameOut ++ [.overflow], result := some (.emission (some .overflow)) } ∧
    ∀ rest, s.input = .rxByte b :: rest →
      step s = .next { s with
        tok := Rules.outside, frameOut := s.frameOut ++ [.overflow]
        result := some (.emission (some .overflow)), input := rest }

/-- R107, in state `OUTSIDE`. -/
def Obligations.TokDataDiscardChangesNothing : Prop :=
  ∀ (s : State) (b : Byte), b ≠ 0x3A → b ≠ 0x3B → s.tok = Rules.outside →
    exec (.tokDataDiscard b) s = .next { s with result := some (.emission none) } ∧
    ∀ rest, s.input = .rxByte b :: rest →
      step s = .next { s with result := some (.emission none), input := rest }

/-- R108 (the spec marks it as derived): in every state of R21 and R23, with a legal MAX_FRAME_LEN (R7), exactly one operation applies to a byte, and the step
goes on to such a state. -/
def Obligations.TokenizerStepIsTotalAndUnambiguous : Prop :=
  ∀ (s : State) (b : Byte) (rest : List Transaction), s.params.wf = true → s.tok.inv s.params = true →
    s.input = .rxByte b :: rest →
    (∃ i, (encode i = .rxByte b ∧ i.wf = true ∧ i.selectedIn s.view = true) ∧
      ∀ j, encode j = .rxByte b → j.wf = true → j.selectedIn s.view = true → j = i) ∧
    ∃ t, step s = .next t ∧ t.tok.inv t.params = true

/-- The model's reading of R23 and U15 (log entry 11): in a state with flag and buffer at odds, a byte other than the start
marker is refused by name, and so is a chunk that begins with it. -/
def Obligations.UnreachableTokenizerStatesAreRefused : Prop :=
  ∀ (s : State) (b : Byte), s.tok.inside ≠ !s.tok.buf.isEmpty → b ≠ 0x3A →
    (∀ rest, s.input = .rxByte b :: rest → step s = .refused (.noOperation .unreachableState)) ∧
    ∀ chunk, exec (.feed (b :: chunk)) s = .refused (.noOperation .unreachableState)

/-- The model's choice (log entry 12): a tokenizer or hex operation performed where its byte, nibble, state or
ACCEPT_LOWERCASE_HEX does not select it (R71, R73) is refused by name; no step ever is, since a step performs what it decoded. -/
def Obligations.UnselectedOperationsAreRefused : Prop :=
  (∀ (i : Instr) (s : State), (i.wf && i.selectedIn s.view) = false → (∀ f, i ≠ .splitFrame f) →
    exec i s = .refused .notSelected) ∧
  ∀ s : State, step s ≠ .refused .notSelected

/-- R22: what sets the flag, what clears it, and that every other operation but the composite FEED leaves it as
it was. -/
def Obligations.OnlyTheNamedOperationsWriteTheFlag : Prop :=
  ∀ (i : Instr) (s t : State), exec i s = .next t →
    (i = .tokStart → t.tok.inside = true) ∧
    (i = .tokEndEmit ∨ i = .tokEndNull ∨ (∃ b, i = .tokDataOverflow b) ∨ i = .reset → t.tok.inside = false) ∧
    ((∀ chunk, i ≠ .feed chunk) → i ≠ .tokStart → i ≠ .tokEndEmit → i ≠ .tokEndNull →
      (∀ b, i ≠ .tokDataOverflow b) → i ≠ .reset → t.tok.inside = s.tok.inside)

/-! ## Chunks and streams -/

/-- R109: FEED is one step per byte, in order, collecting the emissions; the state persists. That FEED itself is one step of
the machine is log entry 18. -/
def Obligations.FeedIsOneStepPerByte : Prop :=
  ∀ (s : State) (chunk : List Byte), s.params.wf = true → s.tok.inv s.params = true →
    ∃ t u es, exec (.feed chunk) s = .next t ∧
      Sys2Proof.core.run chunk.length { s with input := chunk.map .rxByte } = .next u ∧
      u.input = [] ∧ u.frameOut = s.frameOut ++ es ∧
      t = { s with tok := u.tok, frameOut := s.frameOut ++ es, result := some (.emissions es) }

/-- R110: the empty chunk returns no emission and changes nothing, in every state. -/
def Obligations.EmptyChunkChangesNothing : Prop :=
  ∀ s : State, exec (.feed []) s = .next { s with result := some (.emissions []) }

/-- R111 (the spec marks it as derived; the document states it for frames): from every state, feeding two chunks is feeding
their concatenation, in both directions. -/
def Obligations.FeedIsIndependentOfFragmentation : Prop :=
  ∀ (s : State) (a c : List Byte) (t : State),
    exec (.feed (a ++ c)) s = .next t ↔
      ∃ sa sc ea ec, exec (.feed a) s = .next sa ∧ sa.result = some (.emissions ea) ∧
        exec (.feed c) sa = .next sc ∧ sc.result = some (.emissions ec) ∧
        t = { sc with result := some (.emissions (ea ++ ec)) }

/-- R112: in every state of R21 and R23 no step of a received byte and no FEED, of any byte sequence, is refused or has an
error result. -/
def Obligations.TokenizerNeverFails : Prop :=
  ∀ s : State, s.params.wf = true → s.tok.inv s.params = true →
    (∀ b rest, s.input = .rxByte b :: rest →
      ∃ t e, step s = .next t ∧ t.result = some (.emission e) ∧ t.tok.inv t.params = true) ∧
    ∀ chunk, ∃ t es, exec (.feed chunk) s = .next t ∧ t.result = some (.emissions es) ∧ t.tok.inv t.params = true

/-- R113, first half (the spec marks it as derived): a frame that a step puts out has the frame shape. -/
def Obligations.EveryEmittedFrameHasTheFrameShape : Prop :=
  ∀ (s t : State) (es : List Event) (f : List Byte), s.params.wf = true → s.tok.inv s.params = true →
    step s = .next t → t.frameOut = s.frameOut ++ es → .frame f ∈ es → Rules.frameShape s.params.maxFrameLen f

/-- R113, converse (the spec marks it as derived): every byte string of the shape is emitted, alone, when fed from any
state. -/
def Obligations.EveryFrameShapedChunkIsEmitted : Prop :=
  ∀ (s : State) (f : List Byte), Rules.frameShape s.params.maxFrameLen f →
    exec (.feed f) s =
      .next { s with
        tok := Rules.outside, frameOut := s.frameOut ++ [.frame f], result := some (.emissions [.frame f]) }

/-- R114, Garbage tolerance (the document's property, with the condition of conflict C4): garbage without a start marker
around two frames yields exactly the two frames. -/
def Obligations.GarbageAroundFramesIsDropped : Prop :=
  ∀ (s : State) (g₁ f₁ g₂ f₂ : List Byte), s.tok = Rules.outside → 0x3A ∉ g₁ → 0x3A ∉ g₂ →
    Rules.frameShape s.params.maxFrameLen f₁ → Rules.frameShape s.params.maxFrameLen f₂ →
    exec (.feed (g₁ ++ f₁ ++ g₂ ++ f₂)) s =
      .next { s with
        frameOut := s.frameOut ++ [.frame f₁, .frame f₂], result := some (.emissions [.frame f₁, .frame f₂]) }

/-- R114, Restart on a new marker: a partial frame that the buffer can hold, then a complete frame, yields exactly the
complete frame, from any state. -/
def Obligations.RestartDropsThePartialFrame : Prop :=
  ∀ (s : State) (partialData f : List Byte), partialData.all isData = true →
    (∀ m, s.params.maxFrameLen = some m → partialData.length + 2 ≤ m) →
    Rules.frameShape s.params.maxFrameLen f →
    exec (.feed (0x3A :: (partialData ++ f))) s =
      .next { s with
        tok := Rules.outside, frameOut := s.frameOut ++ [.frame f], result := some (.emissions [.frame f]) }

/-- R222 with R106 (a), (b), the spec's own decision D5: a frame longer than MAX_FRAME_LEN is dropped in whole and reported
by one `Overflow`, and the tokenizer ends outside. -/
def Obligations.OverlongFrameYieldsOneOverflow : Prop :=
  ∀ (s : State) (m : Nat) (d : List Byte), s.params.maxFrameLen = some m → 2 ≤ m → d.all isData = true →
    m < d.length + 2 →
    exec (.feed (0x3A :: (d ++ [0x3B]))) s =
      .next { s with
        tok := Rules.outside, frameOut := s.frameOut ++ [.overflow], result := some (.emissions [.overflow]) }

/-- R217, R105 (c): with an infinite MAX_FRAME_LEN an unterminated frame is held for ever: every data byte is stored and
nothing is emitted. -/
def Obligations.UnterminatedFrameIsHeld : Prop :=
  ∀ (s : State) (d : List Byte), s.params.maxFrameLen = none → s.tok.inside = true → s.tok.buf ≠ [] →
    d.all isData = true →
    exec (.feed d) s =
      .next { s with tok := { buf := s.tok.buf ++ d, inside := true }, result := some (.emissions []) }

/-! ## Reset -/

/-- R210, whose values are the spec's own decision D11: outside, empty, no emission, frames already emitted not affected,
from every state. That the kept frame output is the whole recorded history is the model's reading (log entry 7); that the
undelivered input is kept (log entry 5) and that the result port is empty afterwards (log entry 6) are the model's choices. -/
def Obligations.ResetReturnsTheTokenizerToOutside : Prop :=
  ∀ s : State,
    exec .reset s = .next { s with tok := Rules.outside, result := none } ∧
    ∀ rest, s.input = .signal 1 :: rest → step s = .next { s with tok := Rules.outside, result := none, input := rest }

/-- R29, whose values are the spec's own decision D11: `buf = []`, `inside = 0`, nothing emitted. -/
def Obligations.ResetStateIsOutsideWithNothingEmitted : Prop :=
  State.reset.tok.buf = [] ∧ State.reset.tok.inside = false ∧ State.reset.frameOut = []

/-- The machine after reset satisfies the invariant; its legal MAX_FRAME_LEN is the model's choice (log entry 3), its
tokenizer the spec's own decision D11. -/
def Obligations.ResetStateSatisfiesTheInvariant : Prop := State.reset.Inv

/-! ## The character primitives -/

/-- R130: each nibble is written as the one upper-case character of the rule, and nothing else changes; first as delivered,
then row by row. -/
def Obligations.HexencWritesTheUpperCaseCharacter : Prop :=
  ∀ s : State,
    (∀ n : Nibble, ∃ i, decode s.view (.nibble n) = .ok i ∧
      exec i s = .next { s with result := some (.char (Rules.hexChar n.toNat)) }) ∧
    (∀ d : BitVec 3, exec (.hexencDigit07 d) s = .next { s with result := some (.char (Rules.hexChar d.toNat)) }) ∧
    (∀ d : BitVec 1, exec (.hexencDigit89 d) s = .next { s with result := some (.char (Rules.hexChar (8 + d.toNat))) }) ∧
    (∀ n : Nibble, 10 ≤ n.toNat →
      exec (.hexencLetter n) s = .next { s with result := some (.char (Rules.hexChar n.toNat)) })

/-- R131: each byte answers the value of the rule's three ranges or `Invalid`, and nothing else changes. That every other
byte is `Invalid`, and that lower case is a parameter, is the spec's own decision D7 (log entry 14). -/
def Obligations.HexdecAnswersTheValueOfTheByte : Prop :=
  ∀ (s : State) (c : Byte), ∃ i, decode s.view (.hexChar c) = .ok i ∧
    exec i s = .next { s with
      result := some (.nibble ((Rules.hexValue s.params.acceptLowercaseHex c).map (BitVec.ofNat 4))) }

/-- R131, row by row of the opcode table: every row goes on wherever it applies, with the value its row gives: the
lower-case rows where ACCEPT_LOWERCASE_HEX holds, `HEXDEC.INVALID` for every byte no earlier row takes, a lower-case digit
among them where it does not hold (R73). What counts as a hex digit is the spec's own decision D7 (log entry 14). -/
def Obligations.HexdecRowsAnswerTheirValues : Prop :=
  ∀ s : State,
    (∀ d : BitVec 3, exec (.hexdecDigit07 d) s =
      .next { s with result := some (.nibble (some (BitVec.ofNat 4 d.toNat))) }) ∧
    (∀ d : BitVec 1, exec (.hexdecDigit89 d) s =
      .next { s with result := some (.nibble (some (BitVec.ofNat 4 (8 + d.toNat)))) }) ∧
    exec .hexdecUpperA s = .next { s with result := some (.nibble (some 10)) } ∧
    (∀ d : BitVec 1, exec (.hexdecUpperBC d) s =
      .next { s with result := some (.nibble (some (BitVec.ofNat 4 (11 + d.toNat)))) }) ∧
    (∀ d : BitVec 1, exec (.hexdecUpperDE d) s =
      .next { s with result := some (.nibble (some (BitVec.ofNat 4 (13 + d.toNat)))) }) ∧
    exec .hexdecUpperF s = .next { s with result := some (.nibble (some 15)) } ∧
    (s.params.acceptLowercaseHex = true →
      exec .hexdecLowerA s = .next { s with result := some (.nibble (some 10)) } ∧
      (∀ d : BitVec 1, exec (.hexdecLowerBC d) s =
        .next { s with result := some (.nibble (some (BitVec.ofNat 4 (11 + d.toNat)))) }) ∧
      (∀ d : BitVec 1, exec (.hexdecLowerDE d) s =
        .next { s with result := some (.nibble (some (BitVec.ofNat 4 (13 + d.toNat)))) }) ∧
      exec .hexdecLowerF s = .next { s with result := some (.nibble (some 15)) }) ∧
    (∀ c : Byte, Rules.hexValue s.params.acceptLowercaseHex c = none →
      decode s.view (.hexChar c) = .ok (.hexdecInvalid c) ∧
      exec (.hexdecInvalid c) s = .next { s with result := some (.nibble none) })

/-- R131 corner case (a) (the spec marks it as derived), through two steps: the character `HEXENC` writes is read back by `HEXDEC`. -/
def Obligations.HexdecUndoesHexenc : Prop :=
  ∀ (s : State) (n : Nibble) (rest : List Transaction), s.input = .nibble n :: rest →
    ∃ t c, step s = .next t ∧ t.result = some (.char c) ∧
      step { t with input := .hexChar c :: rest } = .next { t with input := rest, result := some (.nibble (some n)) }

/-! ## The header codec -/

/-- R133: `ENCODE_HEADER` goes on with the four characters of the packed value, and nothing else changes. -/
def Obligations.EncodeHeaderWritesThePackedValue : Prop :=
  ∀ (s : State) (major minor : Prio) (busAddress : BusAddr),
    exec (.encodeHeader major minor busAddress) s =
      .next { s with result := some (.bytes (Rules.headerText (Rules.packed major minor busAddress))) }

/-- R132: packing is exact: the or of the shifted fields is their sum, and the largest result is 0xFFE0. -/
def Obligations.PackingIsExact : Prop :=
  ∀ (major minor : Prio) (busAddress : BusAddr),
    (packHeader major minor busAddress).toNat = Rules.packed major minor busAddress ∧
    Rules.packed major minor busAddress ≤ 0xFFE0 ∧
    unpackHeader (packHeader major minor busAddress) = ⟨major, minor, busAddress⟩

/-- R134: `DECODE_HEADER` of four hex characters goes on with the fields of bits 15:5, of any other sequence with
`MalformedHeader`; nothing else changes. That bits 4:0 are not examined and what counts as a hex character are the spec's
own decisions D8 and D7 (log entry 14). -/
def Obligations.DecodeHeaderReadsTheFields : Prop :=
  ∀ (s : State) (text : List Byte),
    exec (.decodeHeader text) s =
      .next { s with
        result := some (match Rules.textValue s.params.acceptLowercaseHex text with
          | some v => .header (Rules.fields v)
          | none => .err .malformedHeader) }

/-- R135: decoding what was encoded gives the fields back; the other way round (the spec marks it as derived; with its
decisions D7 and D8, log entry 14) the text comes back only if it is upper case
and its value has bits 4:0 zero. -/
def Obligations.HeaderRoundTrip : Prop :=
  (∀ (s : State) (major minor : Prio) (busAddress : BusAddr),
    ∃ t text, exec (.encodeHeader major minor busAddress) s = .next t ∧ t.result = some (.bytes text) ∧
      exec (.decodeHeader text) t = .next { t with result := some (.header ⟨major, minor, busAddress⟩) }) ∧
  ∀ (s t u : State) (text : List Byte) (h : HeaderFields),
    exec (.decodeHeader text) s = .next t → t.result = some (.header h) →
    exec (.encodeHeader h.major h.minor h.busAddress) t = .next u → u.result = some (.bytes text) →
    (∀ c ∈ text, c.toNat ≤ 0x46) ∧
    ∀ v, Rules.textValue s.params.acceptLowercaseHex text = some v → v % 32 = 0

/-- R136: `BUILD_PREFIX` goes on with the seven characters, for every value of TYPE_TAG_STD; fed on its own, the prefix
opens a frame and leaves the tokenizer inside with `buf` equal to it, whatever it held, where the tag is no marker and
MAX_FRAME_LEN is legal (R7). -/
def Obligations.BuildPrefixWritesSevenCharacters : Prop :=
  ∀ (s : State) (major minor : Prio) (busAddress : BusAddr) (text : List Byte),
    text = [0x3A, s.params.typeTagStd] ++ Rules.headerText (Rules.packed major minor busAddress) ++ [0x4E] →
    exec (.buildPrefix major minor busAddress) s = .next { s with result := some (.bytes text) } ∧
    (s.params.wf = true → s.params.typeTagStd ≠ 0x3A → s.params.typeTagStd ≠ 0x3B →
      exec (.feed text) s =
        .next { s with tok := { buf := text, inside := true }, result := some (.emissions []) })

/-- R137: `ENCODE_HEADER_DEFAULT` goes on with the header of the given or default major and the given or looked-up minor, or
with `UnknownOpcode` only where minor is absent and `priority_of` does not know the opcode. -/
def Obligations.EncodeHeaderDefaultFillsInThePriorities : Prop :=
  ∀ (s : State) (major minor : Option Prio) (opcode : Byte) (busAddress : BusAddr),
    let m : Prio := major.getD 2
    (∀ n, minor = some n →
      exec (.encodeHeaderDefault major minor opcode busAddress) s =
        .next { s with result := some (.bytes (Rules.headerText (Rules.packed m n busAddress))) }) ∧
    (∀ n, minor = none → priorityOf s.params opcode = some n →
      exec (.encodeHeaderDefault major minor opcode busAddress) s =
        .next { s with result := some (.bytes (Rules.headerText (Rules.packed m n busAddress))) }) ∧
    (minor = none → priorityOf s.params opcode = none →
      exec (.encodeHeaderDefault major minor opcode busAddress) s = .next { s with result := some (.err .unknownOpcode) })

/-- R138 (the spec marks it as derived): the shape of an encoder result, and that different fields give different results. -/
def Obligations.EncoderResultsHaveTheirShape : Prop :=
  ∀ (s t : State) (major minor : Prio) (busAddress : BusAddr),
    exec (.encodeHeader major minor busAddress) s = .next t →
    (∃ h2, t.result = some (.bytes
        [Rules.hexChar (major.toNat * 4 + minor.toNat), Rules.hexChar (busAddress.toNat / 8), h2, 0x30]) ∧
      h2 ∈ ([0x30, 0x32, 0x34, 0x36, 0x38, 0x41, 0x43, 0x45] : List Byte)) ∧
    ∀ major' minor' busAddress' t', exec (.encodeHeader major' minor' busAddress') s = .next t' →
      t'.result = t.result → major' = major ∧ minor' = minor ∧ busAddress' = busAddress

/-! ## Splitting frames -/

/-- R161 with the order of R189 (the spec's own decisions, log entry 14: the numbers and the order D6 and D9, hex and the
low header bits D7 and D8, the untested body D14; that a frame longer than a finite MAX_FRAME_LEN is a frame too is the model's choice, log entry 20):
`SPLIT_FRAME` of every frame goes on, with the first failing check's kind or with the fields, flag and body untouched; nothing else changes. -/
def Obligations.SplitFrameCutsTheFrame : Prop :=
  ∀ (s : State) (f : List Byte), Rules.frameShape none f →
    (f.length < 10 → exec (.splitFrame f) s = .next { s with result := some (.err .tooShort) }) ∧
    (10 ≤ f.length → f[1]? ≠ some s.params.typeTagStd →
      exec (.splitFrame f) s = .next { s with result := some (.err .unsupportedFrameType) }) ∧
    (10 ≤ f.length → f[1]? = some s.params.typeTagStd →
      Rules.textValue s.params.acceptLowercaseHex ((f.drop 2).take 4) = none →
      exec (.splitFrame f) s = .next { s with result := some (.err .malformedHeader) }) ∧
    (∀ v, 10 ≤ f.length → f[1]? = some s.params.typeTagStd →
      Rules.textValue s.params.acceptLowercaseHex ((f.drop 2).take 4) = some v →
      ∃ r : SplitFields, exec (.splitFrame f) s = .next { s with result := some (.split r) } ∧
        f[1]? = some r.tag ∧ f[6]? = some r.flag ∧
        r.major = (Rules.fields v).major ∧ r.minor = (Rules.fields v).minor ∧
        r.busAddress = (Rules.fields v).busAddress ∧
        r.body.length = f.length - 8 ∧ ∀ k, k < f.length - 8 → r.body[k]? = f[k + 7]?)

/-- R160, the spec's own decision D14: a byte sequence that is no tokenizer-shaped frame is refused by name; that the
shape is R160's own list, without R113's bound MAX_FRAME_LEN, is the model's choice (log entry 20). -/
def Obligations.SplitFrameRefusesNonFrames : Prop :=
  ∀ (s : State) (f : List Byte), ¬ Rules.frameShape none f → exec (.splitFrame f) s = .refused .notAFrame

/-- R79, the spec's own decision D12: unit-select values 5 to 7 select no operation and are refused by name, in every
state. -/
def Obligations.ReservedUnitSelectsAreRefused : Prop :=
  (∀ s : State, exec .unitselReserved5 s = .refused (.reservedUnitSelect 5) ∧
    ∀ low : BitVec 1, exec (.unitselReserved67 low) s = .refused (.reservedUnitSelect (BitVec.ofNat 3 (6 + low.toNat)))) ∧
  ∀ (s : State) (op : BitVec 3) (x : UnitPorts) (rest : List Transaction), 5 ≤ op.toNat →
    s.input = .unitSel op x :: rest → step s = .refused (.reservedUnitSelect op)

/-- R135 composed with R113 and R161, the whole path round (vector P5; that a body of two is long enough and that no body is
tested are the spec's own decisions D6 and D14, log entry 14): the fields that go into `BUILD_PREFIX` come out of
`SPLIT_FRAME` after the frame has crossed the tokenizer, for every body of data bytes that fits. -/
def Obligations.FieldsSurviveTheWholePath : Prop :=
  ∀ (s : State) (major minor : Prio) (busAddress : BusAddr) (body : List Byte),
    s.params.typeTagStd ≠ 0x3A → s.params.typeTagStd ≠ 0x3B → body.all isData = true → 2 ≤ body.length →
    (∀ m, s.params.maxFrameLen = some m → body.length + 8 ≤ m) →
    ∃ t text u f, exec (.buildPrefix major minor busAddress) s = .next t ∧ t.result = some (.bytes text) ∧
      f = text ++ body ++ [0x3B] ∧
      exec (.feed f) t = .next u ∧ u.frameOut = s.frameOut ++ [.frame f] ∧ u.tok = Rules.outside ∧
      exec (.splitFrame f) u = .next { u with
        result := some (.split ⟨s.params.typeTagStd, major, minor, busAddress, 0x4E, body⟩) }

/-! ## Errors -/

/-- R185 and R187: which operation raises which kind; the tokenizer raises none, and three kinds are raised by nothing in
scope. -/
def Obligations.ErrorsAreRaisedOnlyByTheirOperations : Prop :=
  ∀ (i : Instr) (s t : State) (k : ErrKind), exec i s = .next t → t.result = some (.err k) →
    (k = .tooShort ∧ ∃ f, i = .splitFrame f) ∨
    (k = .unsupportedFrameType ∧ ∃ f, i = .splitFrame f) ∨
    (k = .malformedHeader ∧ ((∃ f, i = .splitFrame f) ∨ ∃ text, i = .decodeHeader text)) ∨
    (k = .unknownOpcode ∧ ∃ ma o a, i = .encodeHeaderDefault ma none o a ∧ priorityOf s.params o = none)

/-- R190: an error is a returned value: no state of the block changes. -/
def Obligations.AnErrorChangesNoState : Prop :=
  ∀ (i : Instr) (s t : State) (k : ErrKind), exec i s = .next t → t.result = some (.err k) →
    t = { s with result := some (.err k) }

/-- R192: after an error every later operation behaves exactly as if the failing one had not happened. -/
def Obligations.AFailedOperationLeavesNoTrace : Prop :=
  ∀ (i j : Instr) (s t : State) (k : ErrKind), exec i s = .next t → t.result = some (.err k) → exec j t = exec j s

/-- R180, the spec's own numbering (decision D10): the codes are those of the table, the kinds are distinct, 0 is no kind. -/
def Obligations.ErrorCodesAreTheTables : Prop :=
  [ErrKind.tooShort, .unsupportedFrameType, .malformedHeader, .unknownOpcode, .invalidAddress, .connectionError,
    .connectionLost].map errCode = [1, 2, 3, 4, 5, 6, 7] ∧
  ∀ j k, errCode j = errCode k → j = k

/-! ## Whole-machine rules -/

/-- R139, R167: no operation of the pure units reads or writes the tokenizer or depends on an earlier operation: with the
same parameters and operands it gives the same answer in every state, and changes nothing but the result. -/
def Obligations.PureOperationsIgnoreTheState : Prop :=
  ∀ (i : Instr) (s s' : State), (encode i).port = .unitSel ∨ (encode i).port = .hexChar ∨ (encode i).port = .nibble →
    s.params = s'.params →
    (∀ t, exec i s = .next t → t = { s with result := t.result } ∧ exec i s' = .next { s' with result := t.result }) ∧
    ∀ r, exec i s = .refused r → exec i s' = .refused r

/-- R8, R26: the parameters are fixed when the block is built: no step changes them. -/
def Obligations.ParametersAreNeverWritten : Prop :=
  ∀ s t : State, step s = .next t → t.params = s.params

/-- R45, R48: outputs are only added, at the end: a frame once output is never withdrawn or amended; not by RESET either,
which is the model's reading of R29 beside R210 (b) (log entry 7). -/
def Obligations.OutputIsNeverRevised : Prop :=
  ∀ s t : State, step s = .next t → ∃ es, t.frameOut = s.frameOut ++ es

/-- R45: a received byte puts out a frame only if it is the end marker; the frame is then complete, both markers included,
and in the same step the buffer is cleared and the flag set to 0. -/
def Obligations.EmissionIsAtomicAndWhole : Prop :=
  ∀ (s t : State) (b : Byte) (rest : List Transaction) (f : List Byte), s.input = .rxByte b :: rest →
    step s = .next t → t.frameOut = s.frameOut ++ [.frame f] →
    b = 0x3B ∧ f = s.tok.buf ++ [b] ∧ t.tok = Rules.outside ∧ t.result = some (.emission (some (.frame f)))

/-- R44, R47, which speak of received bytes: a step consumes exactly the oldest delivery; there is no look-ahead and no
push-back. That deliveries at the other ports wait in the same line, and that they stay there behind a RESET, is the model's
choice (log entry 5). -/
def Obligations.StepLooksAtTheOldestDeliveryOnly : Prop :=
  ∀ (s : State) (x : Transaction) (rest : List Transaction),
    (∀ t, step { s with input := [x] } = .next t ↔
      (step { s with input := x :: rest } = .next { t with input := rest } ∧ t.input = [])) ∧
    ∀ r, step { s with input := [x] } = .refused r ↔ step { s with input := x :: rest } = .refused r

/-- Every step keeps the invariant: legal parameters (R7), a reachable tokenizer (R21, R23), well-shaped outputs (R113,
R184). -/
def Obligations.EveryStepKeepsTheInvariant : Prop :=
  ∀ s t : State, s.Inv → step s = .next t → t.Inv

/-- Progress: in a state of the invariant a step stops exactly where the oldest delivery is one the spec gives no meaning
(R79, R160, or a reset input that is not asserted, log entry 17; SPLIT_FRAME's frames are of any length, log entry 20); with nothing delivered it goes on (log entry 5). -/
def Obligations.StepStopsOnlyOnMeaninglessDeliveries : Prop :=
  ∀ s : State, s.Inv →
    ((∃ t, step s = .next t) ↔ ∀ x rest, s.input = x :: rest → x.hasMeaning = true)

/-- No run of deliveries with a meaning ever stops, and the invariant holds all along; that a step with nothing delivered
goes on (log entry 5) and that SPLIT_FRAME's frames are of any length (log entry 20) are the model's choices. -/
def Obligations.NoMeaningfulRunStops : Prop :=
  ∀ (n : Nat) (s : State), s.Inv → (∀ x ∈ s.input, x.hasMeaning = true) →
    ∃ t, Sys2Proof.core.run n s = .next t ∧ State.Inv t

/-- R195: instances share nothing: a step of one leaves every other as it was, and does to it what it does alone. That a
system is a list of states, stepped by position, is the model's choice (log entry 16). -/
def Obligations.InstancesAreIndependent : Prop :=
  ∀ (k : Nat) (sys sys' : System), System.stepAt k sys = .next sys' →
    sys'.length = sys.length ∧ (∀ j, j ≠ k → sys'[j]? = sys[j]?) ∧
    ∀ s, sys[k]? = some s → ∃ t, step s = .next t ∧ sys'[k]? = some t

/-! ## The operand ports of the unit select -/

/-- R72's table of inputs: each unit select reads its operands from the ports of their names, in every view; the presence
lines of the two optional arguments are the model's choice (log entry 9), the numbers the spec's own decision D12. -/
def Obligations.UnitSelectPortsAreTheOperands : Prop :=
  ∀ (v : SelectView) (x : UnitPorts),
    decode v (.unitSel 0 x) = .ok (.encodeHeader x.major x.minor x.busAddress) ∧
    decode v (.unitSel 1 x) = .ok (.decodeHeader x.bytes) ∧
    decode v (.unitSel 2 x) = .ok (.buildPrefix x.major x.minor x.busAddress) ∧
    (∃ ma mi, decode v (.unitSel 3 x) = .ok (.encodeHeaderDefault ma mi x.opcode x.busAddress) ∧
      (x.majorGiven = true → ma = some x.major) ∧ (x.majorGiven = false → ma = none) ∧
      (x.minorGiven = true → mi = some x.minor) ∧ (x.minorGiven = false → mi = none)) ∧
    decode v (.unitSel 4 x) = .ok (.splitFrame x.bytes)
end

