-- ==== Sys2Proof/Laws/Decode.lean ====
section
/-! SUPPORT. What the decoder of a hex character can answer (R65, R73). -/

namespace Sys2Proof

/-- The row's word is the byte it was decoded from. -/
theorem encode_decodeHexChar (lowercase : Bool) (c : Byte) : encode (decodeHexChar lowercase c) = .hexChar c := by
  revert lowercase c; decide

/-- Of the rows of `HEXCHAR` only ACCEPT_LOWERCASE_HEX decides: the tokenizer's part of the view does not. -/
theorem selectedIn_of_hexChar {i : Instr} (hi : (encode i).port = .hexChar) {v v' : SelectView}
    (h : v.acceptLowercaseHex = v'.acceptLowercaseHex) : i.selectedIn v = i.selectedIn v' := by
  cases i <;> simp_all [encode, Transaction.port, Instr.selectedIn]

/-- The row of a hex character is well formed and applies under the flag it was decoded with. -/
theorem decodeHexChar_selected (v : SelectView) (c : Byte) :
    (decodeHexChar v.acceptLowercaseHex c).wf = true ∧ (decodeHexChar v.acceptLowercaseHex c).selectedIn v = true := by
  have plain : ∀ (l : Bool) (c : Byte), (decodeHexChar l c).wf = true ∧
      (decodeHexChar l c).selectedIn ⟨false, 0, none, l⟩ = true := by decide
  obtain ⟨hw, hs⟩ := plain v.acceptLowercaseHex c
  have hp : (encode (decodeHexChar v.acceptLowercaseHex c)).port = .hexChar := by rw [encode_decodeHexChar]; rfl
  exact ⟨hw, (selectedIn_of_hexChar hp (v := v) (v' := ⟨false, 0, none, v.acceptLowercaseHex⟩) rfl).trans hs⟩

/-- R73: where ACCEPT_LOWERCASE_HEX is false, a byte that only a lower-case row would take falls through to
`HEXDEC.INVALID`; every other byte has the same row. -/
theorem decodeHexChar_fallthrough (c : Byte) :
    decodeHexChar false c = if Machine.isHexByte false c then decodeHexChar true c else .hexdecInvalid c := by
  revert c; decide

end Sys2Proof
end

