-- ==== Sys2Proof/Laws/State.lean ====
section
/-! SUPPORT. One lemma per field of State per named update, true by rfl, so that no proof unfolds an update. -/

namespace Sys2Proof.Machine

@[simp] theorem State.answer_params (s : State) (r : Result) : (s.answer r).params = s.params := rfl
@[simp] theorem State.answer_tok (s : State) (r : Result) : (s.answer r).tok = s.tok := rfl
@[simp] theorem State.answer_frameOut (s : State) (r : Result) : (s.answer r).frameOut = s.frameOut := rfl
@[simp] theorem State.answer_result (s : State) (r : Result) : (s.answer r).result = some r := rfl
@[simp] theorem State.answer_input (s : State) (r : Result) : (s.answer r).input = s.input := rfl

@[simp] theorem State.raise_params (s : State) (k : ErrKind) : (s.raise k).params = s.params := rfl
@[simp] theorem State.raise_tok (s : State) (k : ErrKind) : (s.raise k).tok = s.tok := rfl
@[simp] theorem State.raise_frameOut (s : State) (k : ErrKind) : (s.raise k).frameOut = s.frameOut := rfl
@[simp] theorem State.raise_result (s : State) (k : ErrKind) : (s.raise k).result = some (.err k) := rfl
@[simp] theorem State.raise_input (s : State) (k : ErrKind) : (s.raise k).input = s.input := rfl

@[simp] theorem State.emit_params (s : State) (t : Tokenizer) (e : Option Event) : (s.emit t e).params = s.params := rfl
@[simp] theorem State.emit_tok (s : State) (t : Tokenizer) (e : Option Event) : (s.emit t e).tok = t := rfl
@[simp] theorem State.emit_frameOut (s : State) (t : Tokenizer) (e : Option Event) : (s.emit t e).frameOut = s.frameOut ++ e.toList := rfl
@[simp] theorem State.emit_result (s : State) (t : Tokenizer) (e : Option Event) : (s.emit t e).result = some (.emission e) := rfl
@[simp] theorem State.emit_input (s : State) (t : Tokenizer) (e : Option Event) : (s.emit t e).input = s.input := rfl

@[simp] theorem State.emitAll_params (s : State) (t : Tokenizer) (es : List Event) : (s.emitAll t es).params = s.params := rfl
@[simp] theorem State.emitAll_tok (s : State) (t : Tokenizer) (es : List Event) : (s.emitAll t es).tok = t := rfl
@[simp] theorem State.emitAll_frameOut (s : State) (t : Tokenizer) (es : List Event) : (s.emitAll t es).frameOut = s.frameOut ++ es := rfl
@[simp] theorem State.emitAll_result (s : State) (t : Tokenizer) (es : List Event) : (s.emitAll t es).result = some (.emissions es) := rfl
@[simp] theorem State.emitAll_input (s : State) (t : Tokenizer) (es : List Event) : (s.emitAll t es).input = s.input := rfl

@[simp] theorem State.consume_params (s : State) : (s.consume).params = s.params := rfl
@[simp] theorem State.consume_tok (s : State) : (s.consume).tok = s.tok := rfl
@[simp] theorem State.consume_frameOut (s : State) : (s.consume).frameOut = s.frameOut := rfl
@[simp] theorem State.consume_result (s : State) : (s.consume).result = s.result := rfl
@[simp] theorem State.consume_input (s : State) : (s.consume).input = s.input.tail := rfl

@[simp] theorem State.deliver_params (s : State) (t : Transaction) : (s.deliver t).params = s.params := rfl
@[simp] theorem State.deliver_tok (s : State) (t : Transaction) : (s.deliver t).tok = s.tok := rfl
@[simp] theorem State.deliver_frameOut (s : State) (t : Transaction) : (s.deliver t).frameOut = s.frameOut := rfl
@[simp] theorem State.deliver_result (s : State) (t : Transaction) : (s.deliver t).result = s.result := rfl
@[simp] theorem State.deliver_input (s : State) (t : Transaction) : (s.deliver t).input = s.input ++ [t] := rfl

@[simp] theorem State.withFetchWord_params (s : State) (nbits w : Nat) :
    (s.withFetchWord nbits w).params = tableParams (tableTransaction nbits w) s.params := rfl
@[simp] theorem State.withFetchWord_tok (s : State) (nbits w : Nat) : (s.withFetchWord nbits w).tok = s.tok := rfl
@[simp] theorem State.withFetchWord_frameOut (s : State) (nbits w : Nat) : (s.withFetchWord nbits w).frameOut = s.frameOut := rfl
@[simp] theorem State.withFetchWord_result (s : State) (nbits w : Nat) : (s.withFetchWord nbits w).result = s.result := rfl
@[simp] theorem State.withFetchWord_input (s : State) (nbits w : Nat) : (s.withFetchWord nbits w).input = tableTransaction nbits w :: s.input := rfl

@[simp] theorem State.conclude_params {α : Type} (s : State) (ok : α → Result) (r : Except ErrKind α) :
    (s.conclude ok r).params = s.params := by
  cases r <;> rfl
@[simp] theorem State.conclude_tok {α : Type} (s : State) (ok : α → Result) (r : Except ErrKind α) :
    (s.conclude ok r).tok = s.tok := by
  cases r <;> rfl
@[simp] theorem State.conclude_frameOut {α : Type} (s : State) (ok : α → Result) (r : Except ErrKind α) :
    (s.conclude ok r).frameOut = s.frameOut := by
  cases r <;> rfl
@[simp] theorem State.conclude_input {α : Type} (s : State) (ok : α → Result) (r : Except ErrKind α) :
    (s.conclude ok r).input = s.input := by
  cases r <;> rfl

@[simp] theorem State.conclude_ok {α : Type} (s : State) (ok : α → Result) (a : α) :
    s.conclude ok (.ok a) = s.answer (ok a) := rfl

@[simp] theorem State.conclude_error {α : Type} (s : State) (ok : α → Result) (k : ErrKind) :
    s.conclude ok (.error k) = s.raise k := rfl

@[simp] theorem State.view_inside (s : State) : s.view.inside = s.tok.inside := rfl
@[simp] theorem State.view_len (s : State) : s.view.len = s.tok.buf.length := rfl
@[simp] theorem State.view_maxFrameLen (s : State) : s.view.maxFrameLen = s.params.maxFrameLen := rfl
@[simp] theorem State.view_acceptLowercaseHex (s : State) :
    s.view.acceptLowercaseHex = s.params.acceptLowercaseHex := rfl
@[simp] theorem State.consume_view (s : State) : s.consume.view = s.view := rfl

@[simp] theorem State.reset_tok : State.reset.tok = { buf := [], inside := false } := rfl
@[simp] theorem State.reset_frameOut : State.reset.frameOut = [] := rfl
@[simp] theorem State.reset_input : State.reset.input = [] := rfl
@[simp] theorem State.reset_maxFrameLen : State.reset.params.maxFrameLen = none := rfl

end Sys2Proof.Machine
end

