-- ==== Sys2Proof/Laws/Operands.lean ====
section
/-! SUPPORT. What the combinational functions do: markers, the length checks, the frame shape, the hex alphabets, the
header value. -/

namespace Sys2Proof.Machine

/-! ## Markers and lengths -/

theorem isData_iff (b : Byte) : isData b = true ↔ b ≠ Config.START ∧ b ≠ Config.END := by
  simp [isData, isMarker]

@[simp] theorem isData_start : isData Config.START = false := by decide
@[simp] theorem isData_end : isData Config.END = false := by decide
theorem start_ne_end : Config.START ≠ Config.END := by decide

/-- A buffer with room still fits after one more byte. -/
theorem bufFits_succ_of_hasRoom {m : Option Nat} {n : Nat} (h : bufHasRoom m n = true) : bufFits m (n + 1) = true := by
  cases m with
  | none => rfl
  | some m => simp only [bufHasRoom, bufFits, decide_eq_true_eq] at *; omega

/-- A buffer that fits has room or is full. -/
theorem bufFits_iff {m : Option Nat} {n : Nat} : bufFits m n = true ↔ bufHasRoom m n = true ∨ bufIsFull m n = true := by
  cases m with
  | none => simp [bufFits, bufHasRoom]
  | some m => simp only [bufHasRoom, bufFits, bufIsFull, decide_eq_true_eq]; omega

theorem not_full_of_hasRoom {m : Option Nat} {n : Nat} (h : bufHasRoom m n = true) : bufIsFull m n = false := by
  cases m with
  | none => rfl
  | some m => simp only [bufHasRoom, bufIsFull, decide_eq_true_eq, decide_eq_false_iff_not] at *; omega

theorem bufFits_mono {m : Option Nat} {n k : Nat} (hk : k ≤ n) (h : bufFits m n = true) : bufFits m k = true := by
  cases m with
  | none => rfl
  | some m => simp only [bufFits, decide_eq_true_eq] at *; omega

/-- A frame one longer than a fitting buffer fits MAX_FRAME_LEN. -/
@[simp] theorem frameFits_succ (m : Option Nat) (n : Nat) : frameFits m (n + 1) = bufFits m n := by
  cases m <;> rfl

theorem bufHasRoom_iff (m : Option Nat) (n : Nat) : bufHasRoom m n = true ↔ ∀ k, m = some k → n < k - 1 := by
  cases m with
  | none => simp [bufHasRoom]
  | some m => simp only [bufHasRoom, decide_eq_true_eq, Option.some.injEq, forall_eq']; omega

theorem frameFits_iff (m : Option Nat) (n : Nat) : frameFits m n = true ↔ ∀ k, m = some k → n ≤ k := by
  cases m <;> simp [frameFits]

theorem bufFits_iff_lt (m : Option Nat) (n : Nat) : bufFits m n = true ↔ ∀ k, m = some k → n < k := by
  cases m with
  | none => simp [bufFits]
  | some m => simp only [bufFits, decide_eq_true_eq, Option.some.injEq, forall_eq']; omega

/-! ## The frame shape -/

/-- The slice between the first and the last element. -/
theorem slice_middle (x y : Byte) (d : List Byte) : slice (x :: (d ++ [y])) 1 (d.length + 1) = d := by
  simp [slice]

/-- R113, R160: a frame is `START`, at least one data byte, `END`. -/
theorem isFrame_iff (f : List Byte) :
    isFrame f = true ↔ ∃ d, f = Config.START :: (d ++ [Config.END]) ∧ d ≠ [] ∧ d.all isData = true := by
  constructor
  · intro h
    simp only [isFrame, Bool.and_eq_true, decide_eq_true_eq, beq_iff_eq] at h
    obtain ⟨⟨⟨hlen, hhead⟩, hlast⟩, hmid⟩ := h
    cases f with
    | nil => simp at hlen
    | cons x rest =>
      obtain rfl : x = Config.START := by simpa using hhead
      rcases List.eq_nil_or_concat rest with rfl | ⟨d, y, rfl⟩
      · simp at hlen
      · rw [List.concat_eq_append] at hlen hlast hmid ⊢
        rw [← List.cons_append, List.getLast?_append] at hlast
        obtain rfl : y = Config.END := by simpa using hlast
        refine ⟨d, rfl, ?_, ?_⟩
        · rintro rfl; simp at hlen
        · simpa [slice_middle] using hmid
  · rintro ⟨d, rfl, hne, hd⟩
    have : 1 ≤ d.length := List.length_pos_iff.mpr hne
    simp only [isFrame, Bool.and_eq_true, decide_eq_true_eq, beq_iff_eq]
    refine ⟨⟨⟨by simp; omega, rfl⟩, ?_⟩, ?_⟩
    · rw [← List.cons_append, List.getLast?_append]; simp
    · simpa [slice_middle] using hd

/-- A closed buffer that holds content is a frame. -/
theorem isFrame_close {b : Byte} {d : List Byte} (hd : d.all isData = true) (hne : d ≠ []) (hb : b = Config.START) :
    isFrame (Memory.close (b :: d)) = true :=
  (isFrame_iff _).mpr ⟨d, by simp [Memory.close, hb], hne, hd⟩

/-! ## The hex alphabets -/

/-- R131 corner case (a). -/
theorem hexDec_hexEnc (lowercase : Bool) (n : Nibble) : hexDec lowercase (hexEnc n) = some n := by
  revert lowercase n; decide

/-- R131: lower case changes only the six letters. -/
theorem hexDec_eq_of_upper {c : Byte} {n : Nibble} (h : hexDec false c = some n) (lowercase : Bool) :
    hexDec lowercase c = some n := by
  revert lowercase n c; decide

/-! ## The header value -/

/-- R68, R69: unpacking undoes packing. -/
theorem unpack_pack (major minor : Prio) (busAddress : BusAddr) :
    unpackHeader (packHeader major minor busAddress) =
      { major := major, minor := minor, busAddress := busAddress } := by
  simp only [unpackHeader, packHeader, Config.MAJOR_SHIFT, Config.MINOR_SHIFT, Config.ADDR_SHIFT, HeaderFields.mk.injEq]
  refine ⟨?_, ?_, ?_⟩ <;> ext i hi <;> interval_cases i <;> simp

/-- R67, R63: the text's nibbles make the header value again. -/
theorem headerValue_nibbles (v : HeaderWord) :
    headerValue (v.extractLsb' 12 4) (v.extractLsb' 8 4) (v.extractLsb' 4 4) (v.extractLsb' 0 4) = v := by
  apply BitVec.eq_of_getLsbD_eq
  intro i hi
  interval_cases i <;> simp [headerValue]

/-- R135: decoding a written header gives its fields. -/
theorem decode_headerText (lowercase : Bool) (v : HeaderWord) :
    decodeHeaderText lowercase (headerText v) = .ok (unpackHeader v) := by
  simp [decodeHeaderText, headerText, hexDec_hexEnc, headerValue_nibbles]

@[simp] theorem encodeHeaderText_length (major minor : Prio) (busAddress : BusAddr) :
    (encodeHeaderText major minor busAddress).length = 4 := rfl

end Sys2Proof.Machine
end

