-- ==== Sys2Proof/Laws/Memory.lean ====
section
/-! SUPPORT. The frame buffer: a read after an append, and that every buffer operation keeps the canonical form of R21. -/

namespace Sys2Proof.Machine

/-- R105: the appended byte stands at index `len(buf)`. -/
theorem Memory.read_append_at (buf : List Byte) (b : Byte) :
    Memory.read (Memory.append buf b) buf.length = some b := by
  simp [Memory.read, Memory.append]

/-- R105: "earlier bytes are not touched", and nothing appears past the new byte. -/
theorem Memory.read_append_ne (buf : List Byte) (b : Byte) {a : Nat} (h : a ≠ buf.length) :
    Memory.read (Memory.append buf b) a = Memory.read buf a := by
  simp only [Memory.read, Memory.append]
  rcases Nat.lt_or_gt_of_ne h with h | h
  · exact List.getElem?_append_left h
  · rw [List.getElem?_eq_none (by simp; omega), List.getElem?_eq_none (by omega)]

@[simp] theorem Memory.wf_cons (b : Byte) (d : List Byte) :
    Memory.wf (b :: d) = (b == Config.START && d.all isData) := rfl
@[simp] theorem Memory.wf_clear : Memory.wf Memory.clear = true := rfl
@[simp] theorem Memory.wf_restart : Memory.wf Memory.restart = true := rfl
@[simp] theorem Memory.clear_eq : Memory.clear = [] := rfl
@[simp] theorem Memory.restart_eq : Memory.restart = [Config.START] := rfl

/-- An append of a data byte to a buffer in use keeps the canonical form. -/
theorem Memory.wf_append {buf : List Byte} {b : Byte} (h : Memory.wf buf = true) (hne : buf ≠ []) (hb : isData b = true) :
    Memory.wf (Memory.append buf b) = true := by
  cases buf with
  | nil => exact absurd rfl hne
  | cons x d =>
    simp only [Memory.append, List.cons_append, Memory.wf_cons, Bool.and_eq_true, List.all_append, List.all_cons,
      List.all_nil, Bool.and_true] at *
    exact ⟨h.1, h.2, hb⟩

/-- R21 (a): a buffer in canonical form that holds something starts with `START` and goes on with data. -/
theorem Memory.wf_cases {buf : List Byte} (h : Memory.wf buf = true) :
    buf = [] ∨ ∃ d, buf = Config.START :: d ∧ d.all isData = true := by
  cases buf with
  | nil => exact .inl rfl
  | cons x d =>
    simp only [Memory.wf_cons, Bool.and_eq_true, beq_iff_eq] at h
    exact .inr ⟨d, by rw [h.1], h.2⟩

/-- The buffer is in canonical form at reset. -/
theorem reset_memory_wf : Memory.wf State.reset.tok.buf = true := rfl

end Sys2Proof.Machine
end

