-- ==== Sys2Proof/Laws/Tokenizer.lean ====
section
/-! SUPPORT. What the tokenizer's shared operations can do: selection, one step, a chunk. -/

namespace Sys2Proof.Machine

/-! ## Selection (R71) -/

/-- The cases of R71: which operation a byte selects, with the byte and the condition of its row. -/
theorem selectTok_cases {v : SelectView} {b : Byte} {op : TokOp} (h : selectTok v b = some op) :
    (op = .start ∧ b = Config.START) ∨
    (op = .endEmit ∧ b = Config.END ∧ v.inside = true ∧ 2 ≤ v.len) ∨
    (op = .endNull ∧ b = Config.END ∧ v.inside = true ∧ v.len = 1) ∨
    (op = .endStray ∧ b = Config.END ∧ v.inside = false ∧ v.len = 0) ∨
    (op = .append ∧ isData b = true ∧ v.inside = true ∧ v.len ≠ 0 ∧ bufHasRoom v.maxFrameLen v.len = true) ∨
    (op = .overflow ∧ isData b = true ∧ v.inside = true ∧ v.len ≠ 0 ∧ bufIsFull v.maxFrameLen v.len = true) ∨
    (op = .discard ∧ isData b = true ∧ v.inside = false ∧ v.len = 0) := by
  unfold selectTok at h
  by_cases h1 : b = Config.START
  · exact .inl ⟨by simpa [h1] using h.symm, h1⟩
  rw [if_neg h1] at h
  obtain ⟨ins, len, m, lower⟩ := v
  cases len with
  | zero =>
    cases ins with
    | true => simp [SelectView.coherent] at h
    | false =>
      by_cases h2 : b = Config.END
      · simp [SelectView.coherent, h2] at h; simp [← h, h2]
      · simp [SelectView.coherent, h2] at h; simp [← h, isData_iff, h1, h2]
  | succ n =>
    cases ins with
    | false => simp [SelectView.coherent] at h
    | true =>
      by_cases h2 : b = Config.END
      · cases n with
        | zero => simp [SelectView.coherent, h2] at h; simp [← h, h2]
        | succ k => simp [SelectView.coherent, h2] at h; simp [← h, h2]
      · simp only [SelectView.coherent, h2, if_false, Bool.not_true] at h
        by_cases h3 : bufHasRoom m (n + 1) = true
        · simp [h3] at h; simp [← h, isData_iff, h1, h2, h3]
        · by_cases h4 : bufIsFull m (n + 1) = true
          · simp [h3, h4] at h; simp [← h, isData_iff, h1, h2, h4]
          · simp [h3, h4] at h

theorem selectTok_start (v : SelectView) : selectTok v Config.START = some .start := by simp [selectTok]

theorem selectTok_endEmit {v : SelectView} (hi : v.inside = true) (hl : 2 ≤ v.len) :
    selectTok v Config.END = some .endEmit := by
  have h0 : v.len ≠ 0 := by omega
  have h1 : v.len ≠ 1 := by omega
  simp [selectTok, SelectView.coherent, hi, h0, h1, start_ne_end.symm]

theorem selectTok_endNull {v : SelectView} (hi : v.inside = true) (hl : v.len = 1) :
    selectTok v Config.END = some .endNull := by
  simp [selectTok, SelectView.coherent, hi, hl, start_ne_end.symm]

theorem selectTok_endStray {v : SelectView} (hi : v.inside = false) (hl : v.len = 0) :
    selectTok v Config.END = some .endStray := by
  simp [selectTok, SelectView.coherent, hi, hl, start_ne_end.symm]

theorem selectTok_append {v : SelectView} {b : Byte} (hb : isData b = true) (hi : v.inside = true) (hl : v.len ≠ 0)
    (hr : bufHasRoom v.maxFrameLen v.len = true) : selectTok v b = some .append := by
  obtain ⟨h1, h2⟩ := (isData_iff b).mp hb
  simp [selectTok, SelectView.coherent, hi, hl, h1, h2, hr]

theorem selectTok_overflow {v : SelectView} {b : Byte} (hb : isData b = true) (hi : v.inside = true) (hl : v.len ≠ 0)
    (hf : bufIsFull v.maxFrameLen v.len = true) : selectTok v b = some .overflow := by
  obtain ⟨h1, h2⟩ := (isData_iff b).mp hb
  have hr : bufHasRoom v.maxFrameLen v.len = false :=
    Bool.eq_false_iff.mpr fun h => by simp [not_full_of_hasRoom h] at hf
  simp [selectTok, SelectView.coherent, hi, hl, h1, h2, hr, hf]

theorem selectTok_discard {v : SelectView} {b : Byte} (hb : isData b = true) (hi : v.inside = false) (hl : v.len = 0) :
    selectTok v b = some .discard := by
  obtain ⟨h1, h2⟩ := (isData_iff b).mp hb
  simp [selectTok, SelectView.coherent, hi, hl, h1, h2]

/-! ## The invariant of the tokenizer (R21, R23) -/

@[simp] theorem Tokenizer.view_inside (p : Params) (t : Tokenizer) : (t.view p).inside = t.inside := rfl
@[simp] theorem Tokenizer.view_len (p : Params) (t : Tokenizer) : (t.view p).len = t.buf.length := rfl
@[simp] theorem Tokenizer.view_maxFrameLen (p : Params) (t : Tokenizer) :
    (t.view p).maxFrameLen = p.maxFrameLen := rfl
@[simp] theorem Tokenizer.view_acceptLowercaseHex (p : Params) (t : Tokenizer) :
    (t.view p).acceptLowercaseHex = p.acceptLowercaseHex := rfl

/-- R23: a reachable tokenizer is outside with an empty buffer, or inside with `START` and data that fits. -/
theorem Tokenizer.inv_cases {p : Params} {t : Tokenizer} (h : t.inv p = true) :
    t = { buf := [], inside := false } ∨
    ∃ d, t = { buf := Config.START :: d, inside := true } ∧ d.all isData = true ∧
      bufFits p.maxFrameLen (d.length + 1) = true := by
  obtain ⟨buf, inside⟩ := t
  simp only [Tokenizer.inv, Bool.and_eq_true, beq_iff_eq] at h
  obtain ⟨⟨hw, hf⟩, hi⟩ := h
  rcases Memory.wf_cases hw with rfl | ⟨d, rfl, hd⟩
  · exact .inl (by simpa using hi)
  · exact .inr ⟨d, by simpa using hi, hd, by simpa using hf⟩

theorem Tokenizer.inv_inside {p : Params} {d : List Byte} (hd : d.all isData = true)
    (hf : bufFits p.maxFrameLen (d.length + 1) = true) :
    Tokenizer.inv p { buf := Config.START :: d, inside := true } = true := by
  simp [Tokenizer.inv, hd, hf]

/-! ## One step (R108) -/

/-- Performing the selected operation is one tokenizer step, emitted. -/
theorem runTok_of_select {op : TokOp} {b : Byte} {s : State} (h : selectTok s.view b = some op) :
    runTok op b s = .next (s.emit (tokAfter op b s.tok) (emissionOf op s.tok.buf)) := by
  simp [runTok, h]

/-- An operation goes on only where its byte and the state select it. -/
theorem runTok_next {op : TokOp} {b : Byte} {s t : State} (h : runTok op b s = .next t) :
    selectTok s.view b = some op ∧ t = s.emit (tokAfter op b s.tok) (emissionOf op s.tok.buf) := by
  unfold runTok at h
  split at h
  · next hs => exact ⟨hs, by cases h; rfl⟩
  · cases h

theorem tokStep_of_select {p : Params} {t : Tokenizer} {b : Byte} {op : TokOp} (h : selectTok (t.view p) b = some op) :
    tokStep p t b = some (tokAfter op b t, emissionOf op t.buf) := by
  simp [tokStep, h]

theorem tokStep_some {p : Params} {t t' : Tokenizer} {b : Byte} {e : Option Event} (h : tokStep p t b = some (t', e)) :
    ∃ op, selectTok (t.view p) b = some op ∧ t' = tokAfter op b t ∧ e = emissionOf op t.buf := by
  unfold tokStep at h
  split at h
  · next op hs => cases h; exact ⟨op, hs, rfl, rfl⟩
  · cases h

/-! ## A chunk (R109) -/

@[simp] theorem feedBytes_nil (p : Params) (t : Tokenizer) : feedBytes p [] t = some (t, []) := rfl

/-- The first byte's step, then the rest. -/
theorem feedBytes_cons {p : Params} {b : Byte} {rest : List Byte} {t t' : Tokenizer} {e : Option Event}
    (h : tokStep p t b = some (t', e)) :
    feedBytes p (b :: rest) t = (feedBytes p rest t').map fun r => (r.1, e.toList ++ r.2) := by
  simp only [feedBytes, h]
  cases feedBytes p rest t' <;> rfl

/-- A chunk in two parts: the second starts where the first ended (R111). -/
theorem feedBytes_append (p : Params) (a c : List Byte) (t : Tokenizer) :
    feedBytes p (a ++ c) t =
      (feedBytes p a t).bind fun r => (feedBytes p c r.1).map fun q => (q.1, r.2 ++ q.2) := by
  induction a generalizing t with
  | nil => simp
  | cons b a ih =>
    simp only [List.cons_append, feedBytes]
    cases h : tokStep p t b with
    | none => rfl
    | some r =>
      simp only [ih]
      cases feedBytes p a r.1 with
      | none => rfl
      | some q =>
        simp only [Option.bind_some]
        cases feedBytes p c q.1 with
        | none => rfl
        | some u => simp

/-- A data byte inside a frame, with room (R105). -/
theorem tokStep_append {p : Params} {buf : List Byte} {b : Byte} (hb : isData b = true) (hne : buf ≠ [])
    (hr : bufHasRoom p.maxFrameLen buf.length = true) :
    tokStep p { buf := buf, inside := true } b = some ({ buf := buf ++ [b], inside := true }, none) :=
  tokStep_of_select (selectTok_append (v := Tokenizer.view p { buf := buf, inside := true }) hb rfl
    (by simpa using hne) hr)

/-- A run of data bytes inside a frame, with room for all of them, is stored and emits nothing (R105). -/
theorem feedBytes_data {p : Params} (d : List Byte) {buf : List Byte} (hd : d.all isData = true) (hne : buf ≠ [])
    (hf : bufFits p.maxFrameLen (buf.length + d.length) = true) :
    feedBytes p d { buf := buf, inside := true } = some ({ buf := buf ++ d, inside := true }, []) := by
  induction d generalizing buf with
  | nil => simp
  | cons b d ih =>
    simp only [List.all_cons, Bool.and_eq_true] at hd
    have hroom : bufHasRoom p.maxFrameLen buf.length = true := by
      rw [bufHasRoom_iff]
      intro k hk
      have := (bufFits_iff_lt _ _).mp hf k hk
      simp only [List.length_cons] at this
      omega
    rw [feedBytes_cons (tokStep_append hd.1 hne hroom), ih hd.2 (by simp)]
    · simp
    · simpa [Nat.add_assoc, Nat.add_comm 1] using hf

/-- Bytes outside a frame that hold no start marker change nothing and emit nothing (R104, R107). -/
theorem feedBytes_garbage {p : Params} (g : List Byte) (hg : Config.START ∉ g) :
    feedBytes p g { buf := [], inside := false } = some ({ buf := [], inside := false }, []) := by
  induction g with
  | nil => rfl
  | cons b g ih =>
    simp only [List.mem_cons, not_or] at hg
    have hstep : tokStep p { buf := [], inside := false } b = some ({ buf := [], inside := false }, none) := by
      by_cases hb : b = Config.END
      · subst hb; exact tokStep_of_select (selectTok_endStray rfl rfl)
      · exact tokStep_of_select (selectTok_discard ((isData_iff b).mpr ⟨fun h => hg.1 h.symm, hb⟩) rfl rfl)
    rw [feedBytes_cons hstep, ih hg.2]
    rfl

/-- A start marker restarts from any state (R101). -/
theorem tokStep_start (p : Params) (t : Tokenizer) :
    tokStep p t Config.START = some ({ buf := [Config.START], inside := true }, none) :=
  tokStep_of_select (selectTok_start _)

/-! ## The invariant is kept (R108, R112) -/

/-- R7: a legal MAX_FRAME_LEN leaves room for a lone start marker. -/
theorem bufFits_one {p : Params} (hp : p.wf = true) : bufFits p.maxFrameLen 1 = true := by
  cases hm : p.maxFrameLen with
  | none => rfl
  | some m =>
    simp only [Params.wf, hm, Config.MIN_FRAME_LEN] at hp
    have h10 := of_decide_eq_true hp
    have : 1 + 1 ≤ m := by omega
    simpa [bufFits] using this

/-- R29: outside with an empty buffer is reachable, whatever the parameters allow. -/
theorem Tokenizer.inv_outside {p : Params} (hp : p.wf = true) : Tokenizer.inv p { buf := [], inside := false } = true := by
  simp [Tokenizer.inv, Memory.wf, bufFits_mono (Nat.zero_le 1) (bufFits_one hp)]

/-- One step leads from a reachable tokenizer to a reachable one, and what it emits is well shaped (R21, R113, R184). -/
theorem tokStep_keeps_inv {p : Params} {t t' : Tokenizer} {b : Byte} {e : Option Event} (hp : p.wf = true)
    (hi : t.inv p = true) (h : tokStep p t b = some (t', e)) : t'.inv p = true ∧ ∀ f ∈ e, Event.ok p f = true := by
  obtain ⟨op, hs, rfl, rfl⟩ := tokStep_some h
  have hout := Tokenizer.inv_outside hp
  rcases selectTok_cases hs with ⟨rfl, hh⟩ | ⟨rfl, hh⟩ | ⟨rfl, hh⟩ | ⟨rfl, hh⟩ | ⟨rfl, hh⟩ | ⟨rfl, hh⟩ | ⟨rfl, hh⟩
  · exact ⟨Tokenizer.inv_inside (d := []) rfl (bufFits_one hp), by simp [emissionOf]⟩
  · refine ⟨hout, ?_⟩
    rcases Tokenizer.inv_cases hi with rfl | ⟨d, rfl, hd, hf⟩
    · simp at hh
    · have hne : d ≠ [] := by rintro rfl; simp at hh
      simp [emissionOf, Event.ok, isFrame_close hd hne rfl]
      simpa [Memory.close] using hf
  · exact ⟨hout, by simp [emissionOf]⟩
  · exact ⟨hi, by simp [emissionOf]⟩
  · refine ⟨?_, by simp [emissionOf]⟩
    rcases Tokenizer.inv_cases hi with rfl | ⟨d, rfl, hd, hf⟩
    · simp at hh
    · exact Tokenizer.inv_inside (d := d ++ [b]) (by rw [List.all_append, hd]; simp [hh.1])
        (by simpa using bufFits_succ_of_hasRoom hh.2.2.2)
  · refine ⟨hout, ?_⟩
    simp [emissionOf, Event.ok]
    cases hm : p.maxFrameLen <;> simp_all [bufIsFull]
  · exact ⟨hi, by simp [emissionOf]⟩

/-- R108: on a reachable tokenizer every byte has a step. -/
theorem tokStep_total {p : Params} {t : Tokenizer} (hi : t.inv p = true) (b : Byte) :
    ∃ t' e, tokStep p t b = some (t', e) := by
  by_cases h1 : b = Config.START
  · subst h1; exact ⟨_, _, tokStep_start p t⟩
  rcases Tokenizer.inv_cases hi with rfl | ⟨d, rfl, hd, hf⟩
  · by_cases h2 : b = Config.END
    · subst h2; exact ⟨_, _, tokStep_of_select (selectTok_endStray rfl rfl)⟩
    · exact ⟨_, _, tokStep_of_select (selectTok_discard ((isData_iff b).mpr ⟨h1, h2⟩) rfl rfl)⟩
  · by_cases h2 : b = Config.END
    · subst h2
      by_cases hd0 : d = []
      · subst hd0; exact ⟨_, _, tokStep_of_select (selectTok_endNull rfl rfl)⟩
      · have := List.length_pos_iff.mpr hd0
        exact ⟨_, _, tokStep_of_select (selectTok_endEmit rfl (by simp; omega))⟩
    · have hb := (isData_iff b).mpr ⟨h1, h2⟩
      rcases bufFits_iff.mp hf with hr | hfull
      · exact ⟨_, _, tokStep_append hb (by simp) (by simpa using hr)⟩
      · exact ⟨_, _, tokStep_of_select (selectTok_overflow hb rfl (by simp) (by simpa using hfull))⟩

/-- R112: a chunk never fails from a reachable tokenizer, and keeps it reachable. -/
theorem feedBytes_total {p : Params} (hp : p.wf = true) (c : List Byte) {t : Tokenizer} (hi : t.inv p = true) :
    ∃ t' es, feedBytes p c t = some (t', es) ∧ t'.inv p = true ∧ ∀ e ∈ es, Event.ok p e = true := by
  induction c generalizing t with
  | nil => exact ⟨t, [], rfl, hi, by simp⟩
  | cons b c ih =>
    obtain ⟨t', e, hs⟩ := tokStep_total hi b
    obtain ⟨h1, h2⟩ := tokStep_keeps_inv hp hi hs
    obtain ⟨t'', es, hf, h3, h4⟩ := ih h1
    refine ⟨t'', e.toList ++ es, by rw [feedBytes_cons hs, hf]; rfl, h3, ?_⟩
    intro x hx
    rcases List.mem_append.mp hx with hx | hx
    · exact h2 x (by simpa using hx)
    · exact h4 x hx

end Sys2Proof.Machine
end

