-- ==== Sys2Proof/Laws/Step.lean ====
section
/-! SUPPORT. What one step and one operation can do, said once: the inversion of `step`, and the five shapes in which `exec`
goes on. -/

namespace Sys2Proof.Machine

/-- A step that goes on is idle, or performs the operation the oldest delivery selects. -/
theorem step_cases {s t : State} (h : step s = .next t) :
    (s.input = [] ∧ t = s) ∨
    ∃ x rest i, s.input = x :: rest ∧ decode s.view x = .ok i ∧ exec i s.consume = .next t := by
  unfold step at h
  split at h
  · next hi => exact .inl ⟨hi, by cases h; rfl⟩
  · next x rest hi =>
    split at h
    · next i hd => exact .inr ⟨x, rest, i, hi, hd, h⟩
    · cases h

/-- A delivery that selects an operation is performed by the next step. -/
theorem step_of_decode {s : State} {x : Transaction} {rest : List Transaction} {i : Instr}
    (hi : s.input = x :: rest) (hd : decode s.view x = .ok i) : step s = exec i s.consume := by
  simp [step, hi, hd]

/-- The tokenizer operation of an instruction, if it is one, with the byte that selects it. -/
def tokOpOf : Instr → Option (TokOp × Byte)
  | .tokStart => some (.start, Config.START)
  | .tokEndEmit => some (.endEmit, Config.END)
  | .tokEndNull => some (.endNull, Config.END)
  | .tokEndStray => some (.endStray, Config.END)
  | .tokDataAppend b => some (.append, b)
  | .tokDataOverflow b => some (.overflow, b)
  | .tokDataDiscard b => some (.discard, b)
  | _ => none

/-- A lower-case row goes on only where ACCEPT_LOWERCASE_HEX holds, with its value (R73). -/
theorem answerLowercase_next {v : Byte} {s t : State} (h : answerLowercase v s = .next t) :
    s.params.acceptLowercaseHex = true ∧ t = s.answer (.nibble (some (v.setWidth 4))) := by
  unfold answerLowercase at h
  split at h
  · next hl => exact ⟨hl, by cases h; rfl⟩
  · cases h

/-- A lower-case row where ACCEPT_LOWERCASE_HEX holds. -/
theorem answerLowercase_of_accepts {s : State} (h : s.params.acceptLowercaseHex = true) (v : Byte) :
    answerLowercase v s = answerNibble v s := if_pos h

/-- The row a hex character selects answers a nibble or `Invalid`; it is never refused (R131). -/
theorem exec_decodeHexChar (s : State) (c : Byte) :
    ∃ n, exec (decodeHexChar s.params.acceptLowercaseHex c) s = .next (s.answer (.nibble n)) := by
  have hs := (decodeHexChar_selected s.view c).2
  have hp : (encode (decodeHexChar s.params.acceptLowercaseHex c)).port = .hexChar := by
    rw [encode_decodeHexChar]; rfl
  rw [State.view_acceptLowercaseHex] at hs
  cases hi : decodeHexChar s.params.acceptLowercaseHex c with
  | hexdecLowerA => exact ⟨_, answerLowercase_of_accepts (by simpa [hi, Instr.selectedIn] using hs) _⟩
  | hexdecLowerBC d => exact ⟨_, answerLowercase_of_accepts (by simpa [hi, Instr.selectedIn] using hs) _⟩
  | hexdecLowerDE d => exact ⟨_, answerLowercase_of_accepts (by simpa [hi, Instr.selectedIn] using hs) _⟩
  | hexdecLowerF => exact ⟨_, answerLowercase_of_accepts (by simpa [hi, Instr.selectedIn] using hs) _⟩
  | hexdecInvalid c' =>
    have hc : isHexByte s.params.acceptLowercaseHex c' = false := by simpa [hi, Instr.selectedIn] using hs
    exact ⟨none, by simp [exec, execHexdecInvalid, hc]⟩
  | _ => first | exact ⟨_, rfl⟩ | simp [hi, encode, Transaction.port] at hp

/-- The five shapes in which an operation goes on: one tokenizer step, a chunk, a reset, an answer, an error. -/
theorem exec_next_cases {i : Instr} {s t : State} (h : exec i s = .next t) :
    (∃ op b, tokOpOf i = some (op, b) ∧ selectTok s.view b = some op ∧
      t = s.emit (tokAfter op b s.tok) (emissionOf op s.tok.buf)) ∨
    (∃ chunk tok es, i = .feed chunk ∧ feedBytes s.params chunk s.tok = some (tok, es) ∧ t = s.emitAll tok es) ∨
    (i = .reset ∧ t = { s with tok := { buf := [], inside := false }, result := none }) ∨
    (∃ r, r.errPort = 0 ∧ t = s.answer r) ∨ (∃ k, t = s.raise k) := by
  have conclude_cases : ∀ {α : Type} (ok : α → Result) (r : Except ErrKind α), (∀ a, (ok a).errPort = 0) →
      t = s.conclude ok r → (∃ r, r.errPort = 0 ∧ t = s.answer r) ∨ (∃ k, t = s.raise k) := by
    intro α ok r hok ht
    cases r with
    | error k => exact .inr ⟨k, ht⟩
    | ok a => exact .inl ⟨ok a, hok a, ht⟩
  cases i with
  | tokStart => exact .inl ⟨_, _, rfl, runTok_next h⟩
  | tokEndEmit => exact .inl ⟨_, _, rfl, runTok_next h⟩
  | tokEndNull => exact .inl ⟨_, _, rfl, runTok_next h⟩
  | tokEndStray => exact .inl ⟨_, _, rfl, runTok_next h⟩
  | tokDataAppend b => exact .inl ⟨_, _, rfl, runTok_next h⟩
  | tokDataOverflow b => exact .inl ⟨_, _, rfl, runTok_next h⟩
  | tokDataDiscard b => exact .inl ⟨_, _, rfl, runTok_next h⟩
  | feed chunk =>
    simp only [exec, execFeed] at h
    split at h
    · next tok es hf => cases h; exact .inr (.inl ⟨chunk, tok, es, rfl, hf, rfl⟩)
    · cases h
  | reset => cases h; exact .inr (.inr (.inl ⟨rfl, rfl⟩))
  | decodeHeader text => cases h; exact .inr (.inr (.inr (conclude_cases _ _ (fun _ => rfl) rfl)))
  | encodeHeaderDefault ma mi o a => cases h; exact .inr (.inr (.inr (conclude_cases _ _ (fun _ => rfl) rfl)))
  | splitFrame f =>
    simp only [exec, execSplitFrame] at h
    split at h
    · cases h; exact .inr (.inr (.inr (conclude_cases _ _ (fun _ => rfl) rfl)))
    · cases h
  | unitselReserved5 => cases h
  | unitselReserved67 low => cases h
  | hexdecLowerA => exact .inr (.inr (.inr (.inl ⟨_, rfl, (answerLowercase_next h).2⟩)))
  | hexdecLowerBC d => exact .inr (.inr (.inr (.inl ⟨_, rfl, (answerLowercase_next h).2⟩)))
  | hexdecLowerDE d => exact .inr (.inr (.inr (.inl ⟨_, rfl, (answerLowercase_next h).2⟩)))
  | hexdecLowerF => exact .inr (.inr (.inr (.inl ⟨_, rfl, (answerLowercase_next h).2⟩)))
  | hexdecInvalid c =>
    simp only [exec, execHexdecInvalid] at h
    split at h
    · cases h
    · cases h; exact .inr (.inr (.inr (.inl ⟨_, rfl, rfl⟩)))
  | hexencLetter n =>
    simp only [exec, execHexencLetter] at h
    split at h
    · cases h; exact .inr (.inr (.inr (.inl ⟨_, rfl, rfl⟩)))
    · cases h
  | _ => cases h; exact .inr (.inr (.inr (.inl ⟨_, rfl, rfl⟩)))

/-- Frame of every operation that goes on: the parameters and the undelivered input are unchanged (R8, R26, R47). -/
theorem exec_frame {i : Instr} {s t : State} (h : exec i s = .next t) : t.params = s.params ∧ t.input = s.input := by
  rcases exec_next_cases h with ⟨op, b, -, -, rfl⟩ | ⟨c, tk, es, -, -, rfl⟩ | ⟨-, rfl⟩ | ⟨r, -, rfl⟩ | ⟨k, rfl⟩ <;> simp

/-- No operation reads the result port (R192). -/
theorem exec_ignores_result (i : Instr) (s : State) (r : Option Result) : exec i { s with result := r } = exec i s := by
  cases i <;> rfl

end Sys2Proof.Machine
end

