-- ==== Sys2Proof/Laws/PerInstr.lean ====
section
/-! SUPPORT. Lemmas made per instruction. RowMatch: the encoding of a well-formed instruction goes to the port its row
names, and its word matches the row's pattern under the row's mask (spec/opcode_table.json). -/

namespace Sys2Proof.Laws.RowMatch

/-- The encoding of `i` stands in its row of the opcode table. -/
def Statement (i : Instr) : Prop :=
  i.wf = true → i.row ∈ opcodeTable ∧ (encode i).port = i.row.port ∧ (encode i).word &&& i.row.mask = i.row.pattern

/-- Every instruction's row stands in the table. -/
theorem row_in_table (i : Instr) : i.row ∈ opcodeTable := by
  cases i <;> simp [opcodeTable, rxByteRows, unitSelRows, hexCharRows, nibbleRows, Instr.row]

theorem tokStart : Statement .tokStart :=
  fun _ => ⟨row_in_table _, rfl, rfl⟩

theorem tokEndEmit : Statement .tokEndEmit :=
  fun _ => ⟨row_in_table _, rfl, rfl⟩

theorem tokEndNull : Statement .tokEndNull :=
  fun _ => ⟨row_in_table _, rfl, rfl⟩

theorem tokEndStray : Statement .tokEndStray :=
  fun _ => ⟨row_in_table _, rfl, rfl⟩

theorem tokDataAppend (b : Byte) : Statement (.tokDataAppend b) :=
  fun _ => ⟨row_in_table _, rfl, BitVec.and_zero⟩

theorem tokDataOverflow (b : Byte) : Statement (.tokDataOverflow b) :=
  fun _ => ⟨row_in_table _, rfl, BitVec.and_zero⟩

theorem tokDataDiscard (b : Byte) : Statement (.tokDataDiscard b) :=
  fun _ => ⟨row_in_table _, rfl, BitVec.and_zero⟩

theorem encodeHeader (major : Prio) (minor : Prio) (busAddress : BusAddr) : Statement (.encodeHeader major minor busAddress) :=
  fun _ => ⟨row_in_table _, rfl, by simp [encode, Transaction.word, Instr.row]⟩

theorem decodeHeader (text : List Byte) : Statement (.decodeHeader text) :=
  fun _ => ⟨row_in_table _, rfl, by simp [encode, Transaction.word, Instr.row]⟩

theorem buildPrefix (major : Prio) (minor : Prio) (busAddress : BusAddr) : Statement (.buildPrefix major minor busAddress) :=
  fun _ => ⟨row_in_table _, rfl, by simp [encode, Transaction.word, Instr.row]⟩

theorem encodeHeaderDefault (major : Option Prio) (minor : Option Prio) (opcode : Byte) (busAddress : BusAddr) : Statement (.encodeHeaderDefault major minor opcode busAddress) :=
  fun _ => ⟨row_in_table _, rfl, by simp [encode, Transaction.word, Instr.row]⟩

theorem splitFrame (frame : List Byte) : Statement (.splitFrame frame) :=
  fun _ => ⟨row_in_table _, rfl, by simp [encode, Transaction.word, Instr.row]⟩

theorem unitselReserved5 : Statement .unitselReserved5 :=
  fun _ => ⟨row_in_table _, rfl, rfl⟩

theorem unitselReserved67 (low : BitVec 1) : Statement (.unitselReserved67 low) :=
  fun _ => ⟨row_in_table _, rfl, by revert low; decide⟩

theorem hexdecDigit07 (d : BitVec 3) : Statement (.hexdecDigit07 d) :=
  fun _ => ⟨row_in_table _, rfl, by revert d; decide⟩

theorem hexdecDigit89 (d : BitVec 1) : Statement (.hexdecDigit89 d) :=
  fun _ => ⟨row_in_table _, rfl, by revert d; decide⟩

theorem hexdecUpperA : Statement .hexdecUpperA :=
  fun _ => ⟨row_in_table _, rfl, rfl⟩

theorem hexdecUpperBC (d : BitVec 1) : Statement (.hexdecUpperBC d) :=
  fun _ => ⟨row_in_table _, rfl, by revert d; decide⟩

theorem hexdecUpperDE (d : BitVec 1) : Statement (.hexdecUpperDE d) :=
  fun _ => ⟨row_in_table _, rfl, by revert d; decide⟩

theorem hexdecUpperF : Statement .hexdecUpperF :=
  fun _ => ⟨row_in_table _, rfl, rfl⟩

theorem hexdecLowerA : Statement .hexdecLowerA :=
  fun _ => ⟨row_in_table _, rfl, rfl⟩

theorem hexdecLowerBC (d : BitVec 1) : Statement (.hexdecLowerBC d) :=
  fun _ => ⟨row_in_table _, rfl, by revert d; decide⟩

theorem hexdecLowerDE (d : BitVec 1) : Statement (.hexdecLowerDE d) :=
  fun _ => ⟨row_in_table _, rfl, by revert d; decide⟩

theorem hexdecLowerF : Statement .hexdecLowerF :=
  fun _ => ⟨row_in_table _, rfl, rfl⟩

theorem hexdecInvalid (c : Byte) : Statement (.hexdecInvalid c) :=
  fun _ => ⟨row_in_table _, rfl, BitVec.and_zero⟩

theorem hexencDigit07 (d : BitVec 3) : Statement (.hexencDigit07 d) :=
  fun _ => ⟨row_in_table _, rfl, by revert d; decide⟩

theorem hexencDigit89 (d : BitVec 1) : Statement (.hexencDigit89 d) :=
  fun _ => ⟨row_in_table _, rfl, by revert d; decide⟩

theorem hexencLetter (n : Nibble) : Statement (.hexencLetter n) :=
  fun _ => ⟨row_in_table _, rfl, BitVec.and_zero⟩

theorem feed (chunk : List Byte) : Statement (.feed chunk) :=
  fun _ => ⟨row_in_table _, rfl, by simp [encode, Transaction.word, Instr.row]⟩

theorem reset : Statement .reset :=
  fun _ => ⟨row_in_table _, rfl, rfl⟩

end Sys2Proof.Laws.RowMatch
end

