-- ==== Sys2Proof/Laws/Rules.lean ====
section
/-! SUPPORT. The rules' own arithmetic, in which the statements are written, against the model's functions. -/

namespace Sys2Proof.Laws

open Sys2Proof.Machine

/-- R131: the rule's three ranges are the model's `HEXDEC`. -/
theorem hexDec_eq_hexValue (lowercase : Bool) (c : Byte) :
    hexDec lowercase c = (Rules.hexValue lowercase c).map (BitVec.ofNat 4) := by
  revert lowercase c; decide

/-- R130: the rule's character is the model's `HEXENC`. -/
theorem hexEnc_eq_hexChar (n : Nibble) : hexEnc n = Rules.hexChar n.toNat := by
  revert n; decide

/-- A value the rule gives is a nibble. -/
theorem hexValue_lt {lowercase : Bool} {c : Byte} {n : Nat} (h : Rules.hexValue lowercase c = some n) : n < 16 := by
  unfold Rules.hexValue at h
  split at h
  · cases h; omega
  · split at h
    · cases h; omega
    · split at h
      · cases h; omega
      · cases h

/-- R113, R160: the rule's frame shape is the model's check with the length bound. -/
theorem frameShape_iff (m : Option Nat) (f : List Byte) :
    Rules.frameShape m f ↔ isFrame f = true ∧ frameFits m f.length = true := by
  constructor
  · rintro ⟨h3, hm, h0, hl, hmid⟩
    refine ⟨?_, (frameFits_iff _ _).mpr hm⟩
    cases f with
    | nil => simp at h3
    | cons x rest =>
      simp at h0; subst h0
      rcases List.eq_nil_or_concat rest with rfl | ⟨d, y, rfl⟩
      · simp at h3
      · rw [List.concat_eq_append] at *
        refine (isFrame_iff _).mpr ⟨d, ?_, ?_, ?_⟩
        · simp at hl; simp [hl, Config.START, Config.END]
        · rintro rfl; simp at h3
        · rw [List.all_eq_true]
          intro z hz
          obtain ⟨i, hi, rfl⟩ := List.getElem_of_mem hz
          exact (isData_iff _).mpr (hmid (i+1) _ (by omega) (by simp; omega) (by simp; rw [List.getElem?_append_left hi]; simp))
  · rintro ⟨hf, hm⟩
    obtain ⟨d, rfl, hne, hd⟩ := (isFrame_iff f).mp hf
    have := List.length_pos_iff.mpr hne
    refine ⟨by simp; omega, (frameFits_iff _ _).mp hm, rfl, by simp; rfl, ?_⟩
    intro i x h0 hi hx
    obtain ⟨j, rfl⟩ : ∃ j, i = j + 1 := ⟨i - 1, by omega⟩
    simp at hi hx
    rw [List.getElem?_append_left hi] at hx
    rw [List.all_eq_true] at hd
    exact (isData_iff x).mp (hd x (List.mem_of_getElem? hx))

end Sys2Proof.Laws
end

