-- ==== Sys2Proof/Tests/Slice0.lean ====
section
/-! SUPPORT. The model's own tests: ill-formed terms, the decoding of a word of every row, one step per operation on small
states (expected results from spec/95_test_vectors.md), the host's table words, and for every statement with hypotheses a
state that meets them. -/

namespace Sys2Proof.Tests

open Sys2Proof Sys2Proof.Machine

/-! ## Small states -/

/-- Parameters with a priority table as T-DEF assumes it (values from no source). -/
def params (m : Option Nat) (lowercase : Bool) : Params :=
  { typeTagStd := 0x53, maxFrameLen := m, acceptLowercaseHex := lowercase, priorityTable := [(0x40, 3), (0x0D, 2)] }

/-- A state with a buffer (inside exactly when it is not empty) and deliveries. -/
def st (m : Option Nat) (lowercase : Bool) (buf : List Byte) (input : List Transaction) : State :=
  { params := params m lowercase, tok := { buf := buf, inside := !buf.isEmpty }, frameOut := [], result := none
    input := input }

/-- The state a step or an operation answers, if it goes on. -/
def nextOf (o : Host.Outcome State Fault Refusal) : Option State :=
  match o with
  | .next s => some s
  | .fault _ => none
  | .refused _ => none

/-- The refusal a step or an operation answers, if any. -/
def refusalOf (o : Host.Outcome State Fault Refusal) : Option Refusal :=
  match o with
  | .next _ => none
  | .fault _ => none
  | .refused r => some r

/-- The result port after an operation. -/
def resultOf (o : Host.Outcome State Fault Refusal) : Option Result := (nextOf o).bind (·.result)

/-- The tokenizer and the frame output after an operation. -/
def tokOf (o : Host.Outcome State Fault Refusal) : Option (List Byte × Bool × List Event) :=
  (nextOf o).map fun s => (s.tok.buf, s.tok.inside, s.frameOut)

/-! ## Ill-formed terms -/

theorem test_wf_append_of_start_marker : (Instr.tokDataAppend 0x3A).wf = false := by decide
theorem test_wf_overflow_of_end_marker : (Instr.tokDataOverflow 0x3B).wf = false := by decide
theorem test_wf_discard_of_end_marker : (Instr.tokDataDiscard 0x3B).wf = false := by decide
theorem test_wf_split_of_inner_marker : (Instr.splitFrame [0x3A, 0x41, 0x3B, 0x42, 0x3B]).wf = false := by decide
theorem test_wf_split_of_empty_frame : (Instr.splitFrame [0x3A, 0x3B]).wf = false := by decide
theorem test_wf_invalid_of_digit : (Instr.hexdecInvalid 0x39).wf = false := by decide
theorem test_wf_letter_of_nine : (Instr.hexencLetter 9).wf = false := by decide

/-! ## Decoding: a word of every row, written out from R64, R65, R71, R72 and the table -/

theorem test_decode_rxByte :
    decode ⟨true, 4, some 8, false⟩ (.rxByte 0b00111010) = .ok .tokStart ∧
    decode ⟨true, 2, some 8, false⟩ (.rxByte 0b00111011) = .ok .tokEndEmit ∧
    decode ⟨true, 1, some 8, false⟩ (.rxByte 0b00111011) = .ok .tokEndNull ∧
    decode ⟨false, 0, some 8, false⟩ (.rxByte 0b00111011) = .ok .tokEndStray ∧
    decode ⟨true, 6, some 8, false⟩ (.rxByte 0b10000000) = .ok (.tokDataAppend 0x80) ∧
    decode ⟨true, 7, some 8, false⟩ (.rxByte 0b00110111) = .ok (.tokDataOverflow 0x37) ∧
    decode ⟨false, 0, some 8, false⟩ (.rxByte 0b00001101) = .ok (.tokDataDiscard 0x0D) := by decide

theorem test_decode_unitSel :
    let x : UnitPorts := ⟨2, 3, false, true, 60, 0x40, [0x41]⟩
    decode ⟨false, 0, none, false⟩ (.unitSel 0b000 x) = .ok (.encodeHeader 2 3 60) ∧
    decode ⟨false, 0, none, false⟩ (.unitSel 0b001 x) = .ok (.decodeHeader [0x41]) ∧
    decode ⟨false, 0, none, false⟩ (.unitSel 0b010 x) = .ok (.buildPrefix 2 3 60) ∧
    decode ⟨false, 0, none, false⟩ (.unitSel 0b011 x) = .ok (.encodeHeaderDefault none (some 3) 0x40 60) ∧
    decode ⟨false, 0, none, false⟩ (.unitSel 0b100 x) = .ok (.splitFrame [0x41]) ∧
    decode ⟨false, 0, none, false⟩ (.unitSel 0b101 x) = .ok .unitselReserved5 ∧
    decode ⟨false, 0, none, false⟩ (.unitSel 0b110 x) = .ok (.unitselReserved67 0) ∧
    decode ⟨false, 0, none, false⟩ (.unitSel 0b111 x) = .ok (.unitselReserved67 1) := by decide

theorem test_decode_hexChar :
    decodeHexChar true 0b00110000 = .hexdecDigit07 0 ∧ decodeHexChar true 0b00110111 = .hexdecDigit07 7 ∧
    decodeHexChar true 0b00111000 = .hexdecDigit89 0 ∧ decodeHexChar true 0b00111001 = .hexdecDigit89 1 ∧
    decodeHexChar true 0b01000001 = .hexdecUpperA ∧ decodeHexChar true 0b01000011 = .hexdecUpperBC 1 ∧
    decodeHexChar true 0b01000100 = .hexdecUpperDE 0 ∧ decodeHexChar true 0b01000110 = .hexdecUpperF ∧
    decodeHexChar true 0b01100001 = .hexdecLowerA ∧ decodeHexChar true 0b01100010 = .hexdecLowerBC 0 ∧
    decodeHexChar true 0b01100101 = .hexdecLowerDE 1 ∧ decodeHexChar true 0b01100110 = .hexdecLowerF ∧
    decodeHexChar true 0b00111010 = .hexdecInvalid 0x3A ∧ decodeHexChar true 0b01000111 = .hexdecInvalid 0x47 := by decide

/-- R73: with ACCEPT_LOWERCASE_HEX false the lower-case rows fall through; the neighbours stay. -/
theorem test_decode_hexChar_fallthrough :
    decodeHexChar false 0x61 = .hexdecInvalid 0x61 ∧ decodeHexChar false 0x63 = .hexdecInvalid 0x63 ∧
    decodeHexChar false 0x64 = .hexdecInvalid 0x64 ∧ decodeHexChar false 0x66 = .hexdecInvalid 0x66 ∧
    decodeHexChar false 0x46 = .hexdecUpperF := by decide

theorem test_decode_nibble_chunk_signal :
    decodeNibble 0b0111 = .hexencDigit07 7 ∧ decodeNibble 0b1001 = .hexencDigit89 1 ∧
    decodeNibble 0b1010 = .hexencLetter 10 ∧
    decode ⟨false, 0, none, false⟩ (.chunk [0x3A]) = .ok (.feed [0x3A]) ∧
    decode ⟨false, 0, none, false⟩ (.signal 1) = .ok .reset ∧
    decode ⟨false, 0, none, false⟩ (.signal 0) = .error .resetNotAsserted ∧
    decode ⟨true, 0, none, false⟩ (.rxByte 0x3B) = .error .unreachableState := by decide

/-- The mnemonics of spec/opcode_table.json stand in the model's table, in its order. -/
theorem test_table_has_thirty_rows : opcodeTable.length = 30 ∧ opcodeTable.Nodup := by decide

/-! ## One step per operation -/

/-- T-TOK-2. -/
theorem test_tokStart : tokOf (step (st none false [0x3A, 0x48, 0x41, 0x4C] [.rxByte 0x3A])) =
    some ([0x3A], true, []) := by decide

/-- T-TOK-3. -/
theorem test_tokEndEmit : tokOf (step (st none false [0x3A, 0x4F, 0x4E, 0x45] [.rxByte 0x3B])) =
    some ([], false, [.frame [0x3A, 0x4F, 0x4E, 0x45, 0x3B]]) := by decide

/-- T-TOK-14: exactly at capacity. -/
theorem test_tokEndEmit_at_capacity :
    tokOf (step (st (some 8) false [0x3A, 0x31, 0x32, 0x33, 0x34, 0x35, 0x36] [.rxByte 0x3B])) =
      some ([], false, [.frame [0x3A, 0x31, 0x32, 0x33, 0x34, 0x35, 0x36, 0x3B]]) := by decide

/-- T-TOK-5. -/
theorem test_tokEndNull : tokOf (step (st none false [0x3A] [.rxByte 0x3B])) = some ([], false, []) := by decide

/-- T-TOK-7. -/
theorem test_tokEndStray : tokOf (step (st none false [] [.rxByte 0x3B])) = some ([], false, []) := by decide

/-- T-TOK-9. -/
theorem test_tokDataAppend : tokOf (step (st none false [0x3A, 0x53] [.rxByte 0x80])) =
    some ([0x3A, 0x53, 0x80], true, []) := by decide

/-- T-TOK-16. -/
theorem test_tokDataAppend_last_room :
    tokOf (step (st (some 8) false [0x3A, 0x31, 0x32, 0x33, 0x34, 0x35] [.rxByte 0x36])) =
      some ([0x3A, 0x31, 0x32, 0x33, 0x34, 0x35, 0x36], true, []) := by decide

/-- T-TOK-13. -/
theorem test_tokDataOverflow :
    tokOf (step (st (some 8) false [0x3A, 0x31, 0x32, 0x33, 0x34, 0x35, 0x36] [.rxByte 0x37])) =
      some ([], false, [.overflow]) := by decide

/-- T-TOK-12. -/
theorem test_tokDataDiscard : tokOf (step (st none false [] [.rxByte 0x0D])) = some ([], false, []) := by decide

/-- T-ENC-17. -/
theorem test_encodeHeader : resultOf (exec (.encodeHeader 1 2 85) (st none false [] [])) =
    some (.bytes [0x36, 0x41, 0x41, 0x30]) := by decide

/-- T-DEC-5: the low five bits are ignored. -/
theorem test_decodeHeader : resultOf (exec (.decodeHeader [0x42, 0x37, 0x39, 0x46]) (st none false [] [])) =
    some (.header ⟨2, 3, 60⟩) := by decide

/-- T-DEC-24 with lower case accepted, T-DEC-19, T-DEC-16. -/
theorem test_decodeHeader_errors :
    resultOf (exec (.decodeHeader [0x61, 0x62, 0x63, 0x64]) (st none true [] [])) = some (.header ⟨2, 2, 94⟩) ∧
    resultOf (exec (.decodeHeader [0x61, 0x62, 0x63, 0x64]) (st none false [] [])) = some (.err .malformedHeader) ∧
    resultOf (exec (.decodeHeader [0x42, 0x37, 0x3A, 0x30]) (st none true [] [])) = some (.err .malformedHeader) ∧
    resultOf (exec (.decodeHeader [0x42, 0x37, 0x38, 0x30, 0x30]) (st none true [] [])) =
      some (.err .malformedHeader) := by decide

/-- T-PFX-4. -/
theorem test_buildPrefix : resultOf (exec (.buildPrefix 2 2 1) (st none false [] [])) =
    some (.bytes [0x3A, 0x53, 0x41, 0x30, 0x32, 0x30, 0x4E]) := by decide

/-- T-DEF-1, T-DEF-2, T-DEF-3. -/
theorem test_encodeHeaderDefault :
    resultOf (exec (.encodeHeaderDefault none none 0x40 60) (st none false [] [])) =
      some (.bytes [0x42, 0x37, 0x38, 0x30]) ∧
    resultOf (exec (.encodeHeaderDefault none (some 1) 0x40 60) (st none false [] [])) =
      some (.bytes [0x39, 0x37, 0x38, 0x30]) ∧
    resultOf (exec (.encodeHeaderDefault (some 0) none 0x0D 60) (st none false [] [])) =
      some (.bytes [0x32, 0x37, 0x38, 0x30]) := by decide

/-- T-DEF-4, T-DEF-5. -/
theorem test_encodeHeaderDefault_unknown :
    resultOf (exec (.encodeHeaderDefault none none 0xEE 60) (st none false [] [])) = some (.err .unknownOpcode) ∧
    resultOf (exec (.encodeHeaderDefault none (some 0) 0xEE 60) (st none false [] [])) =
      some (.bytes [0x38, 0x37, 0x38, 0x30]) := by decide

/-- T-SPL-1. -/
theorem test_splitFrame :
    resultOf (exec (.splitFrame
      [0x3A, 0x53, 0x42, 0x37, 0x38, 0x30, 0x4E, 0x34, 0x30, 0x30, 0x30, 0x30, 0x33, 0x3B]) (st none false [] [])) =
    some (.split ⟨0x53, 2, 3, 60, 0x4E, [0x34, 0x30, 0x30, 0x30, 0x30, 0x33]⟩) := by decide

/-- T-SPL-2, T-SPL-5, T-SPL-8, and a sequence that is no frame (R160). -/
theorem test_splitFrame_errors :
    resultOf (exec (.splitFrame [0x3A, 0x53, 0x42, 0x37, 0x38, 0x30, 0x4E, 0x30, 0x3B]) (st none false [] [])) =
      some (.err .tooShort) ∧
    resultOf (exec (.splitFrame [0x3A, 0x58, 0x42, 0x37, 0x38, 0x47, 0x4E, 0x30, 0x44, 0x3B]) (st none false [] [])) =
      some (.err .unsupportedFrameType) ∧
    resultOf (exec (.splitFrame [0x3A, 0x53, 0x42, 0x37, 0x38, 0x47, 0x4E, 0x30, 0x44, 0x3B]) (st none false [] [])) =
      some (.err .malformedHeader) ∧
    refusalOf (exec (.splitFrame [0x3A, 0x3B]) (st none false [] [])) = some .notAFrame := by decide

/-- R79. -/
theorem test_reserved : refusalOf (step (st none false [] [.unitSel 5 UnitPorts.zero])) = some (.reservedUnitSelect 5) ∧
    refusalOf (step (st none false [] [.unitSel 7 UnitPorts.zero])) = some (.reservedUnitSelect 7) := by decide

/-- What `HEXDEC` answers for a byte, with ACCEPT_LOWERCASE_HEX false and true. -/
def hexdecBoth (c : Byte) : Option Result × Option Result :=
  (resultOf (step (st none false [] [.hexChar c])), resultOf (step (st none true [] [.hexChar c])))

/-- T-HEX-3 to T-HEX-10: digits and upper case, and their neighbours. -/
theorem test_hexdec_digits_and_upper :
    hexdecBoth 0x2F = (some (.nibble none), some (.nibble none)) ∧
    hexdecBoth 0x30 = (some (.nibble (some 0)), some (.nibble (some 0))) ∧
    hexdecBoth 0x39 = (some (.nibble (some 9)), some (.nibble (some 9))) ∧
    hexdecBoth 0x3A = (some (.nibble none), some (.nibble none)) ∧
    hexdecBoth 0x40 = (some (.nibble none), some (.nibble none)) ∧
    hexdecBoth 0x41 = (some (.nibble (some 10)), some (.nibble (some 10))) ∧
    hexdecBoth 0x43 = (some (.nibble (some 12)), some (.nibble (some 12))) ∧
    hexdecBoth 0x44 = (some (.nibble (some 13)), some (.nibble (some 13))) ∧
    hexdecBoth 0x46 = (some (.nibble (some 15)), some (.nibble (some 15))) := by decide

/-- T-HEX-11 to T-HEX-18: lower case is the open parameter. -/
theorem test_hexdec_lower_and_rest :
    hexdecBoth 0x47 = (some (.nibble none), some (.nibble none)) ∧
    hexdecBoth 0x60 = (some (.nibble none), some (.nibble none)) ∧
    hexdecBoth 0x61 = (some (.nibble none), some (.nibble (some 10))) ∧
    hexdecBoth 0x62 = (some (.nibble none), some (.nibble (some 11))) ∧
    hexdecBoth 0x65 = (some (.nibble none), some (.nibble (some 14))) ∧
    hexdecBoth 0x66 = (some (.nibble none), some (.nibble (some 15))) ∧
    hexdecBoth 0x67 = (some (.nibble none), some (.nibble none)) ∧
    hexdecBoth 0xFF = (some (.nibble none), some (.nibble none)) := by decide

/-- The HEXENC table of 95_test_vectors.md section 2.1. -/
theorem test_hexenc :
    ([0, 7, 8, 9, 10, 15] : List Nibble).map (fun n => resultOf (step (st none false [] [.nibble n]))) =
      ([0x30, 0x37, 0x38, 0x39, 0x41, 0x46] : List Byte).map (fun c => some (.char c)) := by decide

/-- T-FEED-1. -/
theorem test_feed : nextOf (exec (.feed [0x3A, 0x4F, 0x4E, 0x45, 0x3B, 0x3A, 0x54, 0x57, 0x4F, 0x3B]) (st none false [] [])) =
    some { st none false [] [] with
      frameOut := [.frame [0x3A, 0x4F, 0x4E, 0x45, 0x3B], .frame [0x3A, 0x54, 0x57, 0x4F, 0x3B]]
      result := some (.emissions [.frame [0x3A, 0x4F, 0x4E, 0x45, 0x3B], .frame [0x3A, 0x54, 0x57, 0x4F, 0x3B]]) } := by
  decide

/-- T-FEED-15. -/
theorem test_feed_overflow :
    resultOf (exec (.feed [0x3A, 0x31, 0x32, 0x33, 0x34, 0x35, 0x36, 0x37, 0x38, 0x3B, 0x3A, 0x41, 0x42, 0x3B])
      (st (some 8) false [] [])) = some (.emissions [.overflow, .frame [0x3A, 0x41, 0x42, 0x3B]]) := by decide

/-- T-FEED-17, its first operation. -/
theorem test_reset : tokOf (step (st none false [0x3A, 0x48, 0x41, 0x4C] [.signal 1])) = some ([], false, []) := by decide

/-! ## The host's table words (log entry 8) -/

theorem test_table_words :
    decodeTableWord 8 0x3A = some .tokStart ∧ decodeTableWord 8 0x3B = some .tokEndStray ∧
    decodeTableWord 8 0x80 = some (.tokDataDiscard 0x80) ∧ decodeTableWord 8 0 = some (.encodeHeader 0 0 0) ∧
    decodeTableWord 8 4 = some (.splitFrame [0x3A, 0, 0x3B]) ∧ decodeTableWord 8 6 = some (.unitselReserved67 0) ∧
    decodeTableWord 8 8 = some (.hexencDigit89 0) ∧ decodeTableWord 8 0x30 = some (.hexdecDigit07 0) ∧
    decodeTableWord 16 0x66 = some .hexdecLowerF ∧ decodeTableWord 16 0 = some (.hexdecInvalid 0) ∧
    decodeTableWord 0 0 = some (.feed []) := by decide

/-- The very next step after reset performs the table word, also where the outcome holds a free value. -/
theorem test_table_words_run :
    ([0x3A, 0x3B, 0x80, 0, 1, 2, 3, 4, 8, 0x30, 0x38, 0x41, 0x42, 0x44, 0x46, 0x61, 0x62, 0x64, 0x66] : List Nat).all
      (fun w => goesOn (step (State.reset.withFetchWord 8 w))) = true := by decide

/-- A word of a lower-case row runs that row (log entry 10), and HEXDEC.INVALID's word needs no parameter. -/
theorem test_table_words_lowercase :
    resultOf (step (State.reset.withFetchWord 16 0x66)) = some (.nibble (some 15)) ∧
    resultOf (step (State.reset.withFetchWord 16 0)) = some (.nibble none) := by decide

/-! ## Witnesses: for each statement, states and operands that meet its hypotheses, at the edges of their ranges -/

/-- A state with MAX_FRAME_LEN = 10, the least legal value (R7). -/
def w (buf : List Byte) (input : List Transaction) : State := st (some 10) false buf input

/-- A buffer with room for exactly one more byte under MAX_FRAME_LEN = 10. -/
def almostFull : List Byte := [0x3A, 0x31, 0x32, 0x33, 0x34, 0x35, 0x36, 0x37]

/-- A buffer with no room under MAX_FRAME_LEN = 10. -/
def full : List Byte := almostFull ++ [0x38]

/-- `:SB780N0D;`, the shortest frame `SPLIT_FRAME` accepts. -/
def frame10 : List Byte := [0x3A, 0x53, 0x42, 0x37, 0x38, 0x30, 0x4E, 0x30, 0x44, 0x3B]

/-- A frame of nine bytes, one short of MIN_FRAME_LEN. -/
def frame9 : List Byte := [0x3A, 0x53, 0x42, 0x37, 0x38, 0x30, 0x4E, 0x30, 0x3B]

/-- The length condition of R105 at its edge. -/
theorem room_for_one : ∀ m, (w almostFull []).params.maxFrameLen = some m → almostFull.length < m - 1 := by
  intro m h; cases h; decide

theorem frame10_shape (m : Option Nat) (h : frameFits m 10 = true) : Rules.frameShape m frame10 :=
  (Laws.frameShape_iff m frame10).mpr ⟨by decide, h⟩

theorem frame9_shape : Rules.frameShape none frame9 := (Laws.frameShape_iff none frame9).mpr ⟨by decide, rfl⟩

/-! ### Fetching, decoding, encoding -/

theorem witness_StepRunsTheDecodedInstruction :
    (w full [.rxByte 0x3B]).input = .rxByte 0x3B :: [] ∧
    decode (w full [.rxByte 0x3B]).view (.rxByte 0x3B) = .ok .tokEndEmit := by decide

theorem witness_IdleStepKeepsTheState : (w full []).input = [] := by decide

theorem witness_DecodeOfEncodeIsTheInstruction :
    ((Instr.tokDataAppend 0xFF).wf = true ∧ (Instr.tokDataAppend 0xFF).selectedIn ⟨true, 8, some 10, false⟩ = true) ∧
    ((Instr.tokDataOverflow 0).wf = true ∧ (Instr.tokDataOverflow 0).selectedIn ⟨true, 9, some 10, false⟩ = true) ∧
    ((Instr.splitFrame frame10).wf = true ∧ (Instr.splitFrame frame10).selectedIn ⟨false, 0, none, false⟩ = true) ∧
    ((Instr.hexdecLowerBC 1).wf = true ∧ (Instr.hexdecLowerBC 1).selectedIn ⟨false, 0, none, true⟩ = true) ∧
    ((Instr.hexdecInvalid 0x63).wf = true ∧ (Instr.hexdecInvalid 0x63).selectedIn ⟨false, 0, none, false⟩ = true) ∧
    ((Instr.hexencLetter 10).wf = true ∧ (Instr.hexencLetter 10).selectedIn ⟨false, 0, none, false⟩ = true) := by decide

theorem witness_EncodeOfDecodeIsTheDelivery :
    decode ⟨true, 9, some 10, false⟩ (.rxByte 0x31) = .ok (.tokDataOverflow 0x31) ∧
    (Transaction.rxByte 0x31).port ≠ .unitSel ∧
    decode ⟨false, 0, none, false⟩ (.unitSel 4 UnitPorts.zero) = .ok (.splitFrame []) ∧
    decode ⟨false, 0, none, false⟩ (.unitSel 3 ⟨2, 3, false, true, 60, 0x40, [0x41]⟩) =
      .ok (.encodeHeaderDefault none (some 3) 0x40 60) := by decide

/-- One witness per clause with a hypothesis. -/
theorem witness_UnitSelectPortsAreTheOperands :
    (UnitPorts.majorGiven ⟨2, 3, true, false, 60, 0x40, []⟩ = true) ∧
    (UnitPorts.minorGiven ⟨2, 3, true, false, 60, 0x40, []⟩ = false) ∧
    (UnitPorts.majorGiven ⟨2, 3, false, true, 60, 0x40, []⟩ = false) ∧
    (UnitPorts.minorGiven ⟨2, 3, false, true, 60, 0x40, []⟩ = true) := by decide

theorem witness_DecodeTakesTheFirstMatchingRow :
    (SelectView.coherent ⟨true, 1, some 10, false⟩ = true ∧ SelectView.coherent ⟨true, 9, some 10, false⟩ = true) ∧
    SelectView.coherent ⟨false, 0, none, false⟩ = true := by decide

/-- One witness per clause. -/
theorem witness_TokenizerSelectionFollowsTheTable :
    (w full []).tok.inv (w full []).params = true ∧ (w full []).tok.inside = true ∧ 2 ≤ (w full []).tok.buf.length ∧
    (w [0x3A, 0] []).tok.inv (w [0x3A, 0] []).params = true ∧ 2 ≤ (w [0x3A, 0] []).tok.buf.length ∧
    (w [0x3A] []).tok.inv (w [0x3A] []).params = true ∧ (w [0x3A] []).tok.buf.length = 1 ∧
    (w [] []).tok.inv (w [] []).params = true ∧ (w [] []).tok.inside = false ∧
    (w almostFull []).tok.inv (w almostFull []).params = true ∧ (w almostFull []).tok.inside = true ∧
    (w full []).params.maxFrameLen = some ((w full []).tok.buf.length + 1) ∧
    (0x39 : Byte) ≠ 0x3A ∧ (0x3C : Byte) ≠ 0x3B := by decide

/-! ### The tokenizer operations -/

theorem witness_TokStartRestartsTheBuffer : (w full [.rxByte 0x3A]).input = .rxByte 0x3A :: [] := by decide

theorem witness_TokEndEmitPutsOutTheFrame :
    ((w full [.rxByte 0x3B]).tok.inside = true ∧ 2 ≤ (w full [.rxByte 0x3B]).tok.buf.length ∧
      (w full [.rxByte 0x3B]).input = .rxByte 0x3B :: []) ∧
    ((w [0x3A, 0] []).tok.inside = true ∧ 2 ≤ (w [0x3A, 0] []).tok.buf.length) := by decide

theorem witness_TokEndNullLeavesTheFrameSilently :
    (w [0x3A] [.rxByte 0x3B]).tok.inside = true ∧ (w [0x3A] [.rxByte 0x3B]).tok.buf.length = 1 ∧
    (w [0x3A] [.rxByte 0x3B]).input = .rxByte 0x3B :: [] := by decide

theorem witness_TokEndStrayChangesNothing :
    (w [] [.rxByte 0x3B]).tok = Rules.outside ∧ (w [] [.rxByte 0x3B]).input = .rxByte 0x3B :: [] := by decide

theorem witness_TokDataAppendStoresTheByte :
    ((0x39 : Byte) ≠ 0x3A ∧ (0x39 : Byte) ≠ 0x3B ∧ (w almostFull [.rxByte 0x39]).tok.inside = true ∧
      (w almostFull [.rxByte 0x39]).tok.buf ≠ [] ∧ (w almostFull [.rxByte 0x39]).input = .rxByte 0x39 :: []) ∧
    ∀ m, (w almostFull [.rxByte 0x39]).params.maxFrameLen = some m →
      (w almostFull [.rxByte 0x39]).tok.buf.length < m - 1 :=
  ⟨by decide, room_for_one⟩

theorem witness_TokDataOverflowDropsTheFrame :
    (0x3C : Byte) ≠ 0x3A ∧ (0x3C : Byte) ≠ 0x3B ∧ (w full [.rxByte 0x3C]).tok.inside = true ∧
    (w full [.rxByte 0x3C]).tok.buf ≠ [] ∧ (w full [.rxByte 0x3C]).params.maxFrameLen = some 10 ∧
    (w full [.rxByte 0x3C]).tok.buf.length = 10 - 1 ∧ (w full [.rxByte 0x3C]).input = .rxByte 0x3C :: [] := by decide

theorem witness_TokDataDiscardChangesNothing :
    (0xFF : Byte) ≠ 0x3A ∧ (0xFF : Byte) ≠ 0x3B ∧ (w [] [.rxByte 0xFF]).tok = Rules.outside ∧
    (w [] [.rxByte 0xFF]).input = .rxByte 0xFF :: [] := by decide

theorem witness_TokenizerStepIsTotalAndUnambiguous :
    (w full [.rxByte 0x39]).params.wf = true ∧ (w full [.rxByte 0x39]).tok.inv (w full [.rxByte 0x39]).params = true ∧
    (w full [.rxByte 0x39]).input = .rxByte 0x39 :: [] := by decide

/-- A tokenizer with flag and buffer at odds, either way round. -/
theorem witness_UnreachableTokenizerStatesAreRefused :
    ({ w [] [.rxByte 0x3B] with tok := ⟨[], true⟩ } : State).tok.inside ≠
      !({ w [] [.rxByte 0x3B] with tok := ⟨[], true⟩ } : State).tok.buf.isEmpty ∧
    ({ w [] [.rxByte 0x3B] with tok := ⟨full, false⟩ } : State).tok.inside ≠
      !({ w [] [.rxByte 0x3B] with tok := ⟨full, false⟩ } : State).tok.buf.isEmpty ∧
    ({ w [] [.rxByte 0x3B] with tok := ⟨[], true⟩ } : State).input = .rxByte 0x3B :: [] ∧
    (0x3B : Byte) ≠ 0x3A := by decide

theorem witness_UnselectedOperationsAreRefused :
    (Instr.tokEndEmit.wf && Instr.tokEndEmit.selectedIn (w [0x3A] []).view) = false ∧
    ((Instr.hexdecInvalid 0x46).wf && (Instr.hexdecInvalid 0x46).selectedIn (w [] []).view) = false ∧
    (Instr.hexdecLowerA.wf && Instr.hexdecLowerA.selectedIn (w [] []).view) = false ∧
    ∀ f, Instr.hexdecInvalid 0x46 ≠ .splitFrame f :=
  ⟨by decide, by decide, by decide, fun _ h => nomatch h⟩

/-- One witness per clause: an operation that sets the flag, one that clears it, one that leaves it. -/
theorem witness_OnlyTheNamedOperationsWriteTheFlag :
    (∃ t, exec .tokStart (w [] []) = .next t) ∧ (∃ t, exec .tokEndNull (w [0x3A] []) = .next t) ∧
    (∃ t, exec .reset (w full []) = .next t) ∧ (∃ t, exec (.tokDataAppend 0x39) (w almostFull []) = .next t) ∧
    ∃ t, exec .hexdecUpperA (w full []) = .next t :=
  ⟨⟨_, rfl⟩, ⟨_, rfl⟩, ⟨_, rfl⟩, ⟨_, rfl⟩, ⟨_, rfl⟩⟩

/-! ### Chunks and streams -/

theorem witness_FeedIsOneStepPerByte :
    (w full []).params.wf = true ∧ (w full []).tok.inv (w full []).params = true := by decide

theorem witness_FeedIsIndependentOfFragmentation :
    (∃ t, exec (.feed ([0x3A, 0x41] ++ [0x42, 0x3B])) (w full []) = .next t) ∧
    ∃ sa sc ea ec t, exec (.feed [0x3A, 0x41]) (w full []) = .next sa ∧ sa.result = some (.emissions ea) ∧
      exec (.feed [0x42, 0x3B]) sa = .next sc ∧ sc.result = some (.emissions ec) ∧
      t = { sc with result := some (.emissions (ea ++ ec)) } :=
  ⟨⟨_, rfl⟩, ⟨_, _, _, _, _, rfl, rfl, rfl, rfl, rfl⟩⟩

theorem witness_TokenizerNeverFails :
    ((w [] []).params.wf = true ∧ (w [] []).tok.inv (w [] []).params = true) ∧
    (w full [.rxByte 0x39]).params.wf = true ∧ (w full [.rxByte 0x39]).tok.inv (w full [.rxByte 0x39]).params = true ∧
    (w full [.rxByte 0x39]).input = .rxByte 0x39 :: [] := by decide

theorem witness_EveryEmittedFrameHasTheFrameShape :
    (w full [.rxByte 0x3B]).params.wf = true ∧
    (w full [.rxByte 0x3B]).tok.inv (w full [.rxByte 0x3B]).params = true ∧
    ∃ t, step (w full [.rxByte 0x3B]) = .next t ∧
      t.frameOut = (w full [.rxByte 0x3B]).frameOut ++ [.frame (full ++ [0x3B])] ∧
      .frame (full ++ [0x3B]) ∈ [Event.frame (full ++ [0x3B])] :=
  ⟨by decide, by decide, _, rfl, rfl, by decide⟩

theorem witness_EveryFrameShapedChunkIsEmitted : Rules.frameShape (w full []).params.maxFrameLen frame10 :=
  frame10_shape _ (by decide)

theorem witness_GarbageAroundFramesIsDropped :
    (w [] []).tok = Rules.outside ∧ (0x3A : Byte) ∉ ([0x3B, 0x0D] : List Byte) ∧ (0x3A : Byte) ∉ ([] : List Byte) ∧
    Rules.frameShape (w [] []).params.maxFrameLen frame10 :=
  ⟨by decide, by decide, by decide, frame10_shape _ (by decide)⟩

theorem witness_RestartDropsThePartialFrame :
    (full.drop 1).all isData = true ∧
    (∀ m, (w [] []).params.maxFrameLen = some m → (full.drop 1).length + 2 ≤ m) ∧
    Rules.frameShape (w [] []).params.maxFrameLen frame10 :=
  ⟨by decide, by intro m h; cases h; decide, frame10_shape _ (by decide)⟩

theorem witness_OverlongFrameYieldsOneOverflow :
    (w [] []).params.maxFrameLen = some 10 ∧ 2 ≤ 10 ∧ (full.drop 1 ++ [0x39]).all isData = true ∧
    10 < (full.drop 1 ++ [0x39]).length + 2 := by decide

theorem witness_UnterminatedFrameIsHeld :
    (st none false [0x3A] []).params.maxFrameLen = none ∧ (st none false [0x3A] []).tok.inside = true ∧
    (st none false [0x3A] []).tok.buf ≠ [] ∧ (full.drop 1).all isData = true := by decide

theorem witness_ResetReturnsTheTokenizerToOutside : (w full [.signal 1]).input = .signal 1 :: [] := by decide

/-! ### The character primitives and the header codec -/

theorem witness_HexencWritesTheUpperCaseCharacter : 10 ≤ (10 : Nibble).toNat ∧ 10 ≤ (15 : Nibble).toNat := by decide

/-- The neighbours of the ranges, and the lower-case digits where the parameter is false. -/
theorem witness_HexdecRowsAnswerTheirValues :
    (st none true [] []).params.acceptLowercaseHex = true ∧
    Rules.hexValue (w [] []).params.acceptLowercaseHex 0x61 = none ∧
    Rules.hexValue (w [] []).params.acceptLowercaseHex 0x66 = none ∧
    Rules.hexValue true 0x2F = none ∧ Rules.hexValue true 0x3A = none ∧ Rules.hexValue true 0x40 = none ∧
    Rules.hexValue true 0x47 = none ∧ Rules.hexValue true 0x60 = none ∧ Rules.hexValue true 0x67 = none := by decide

theorem witness_HexdecUndoesHexenc : (w [] [.nibble 15]).input = .nibble 15 :: [] := by decide

/-- For the second part: `B780` is read and written back unchanged. -/
theorem witness_HeaderRoundTrip :
    ∃ t u, exec (.decodeHeader [0x42, 0x37, 0x38, 0x30]) (w [] []) = .next t ∧
      t.result = some (.header ⟨2, 3, 60⟩) ∧ exec (.encodeHeader 2 3 60) t = .next u ∧
      u.result = some (.bytes [0x42, 0x37, 0x38, 0x30]) ∧
      Rules.textValue (w [] []).params.acceptLowercaseHex [0x42, 0x37, 0x38, 0x30] = some 0xB780 :=
  ⟨_, _, rfl, rfl, rfl, rfl, rfl⟩

theorem witness_BuildPrefixWritesSevenCharacters :
    (w full []).params.wf = true ∧ (w full []).params.typeTagStd ≠ 0x3A ∧ (w full []).params.typeTagStd ≠ 0x3B ∧
    [0x3A, 0x53, 0x42, 0x37, 0x38, 0x30, 0x4E] =
      [0x3A, (w full []).params.typeTagStd] ++ Rules.headerText (Rules.packed 2 3 60) ++ [0x4E] := by decide

/-- One witness per clause. -/
theorem witness_EncodeHeaderDefaultFillsInThePriorities :
    (some (3 : Prio) = some 3) ∧
    ((none : Option Prio) = none ∧ priorityOf (w [] []).params 0x40 = some 3) ∧
    ((none : Option Prio) = none ∧ priorityOf (w [] []).params 0xEE = none) := by decide

theorem witness_EncoderResultsHaveTheirShape :
    ∃ t t', exec (.encodeHeader 3 3 127) (w [] []) = .next t ∧ exec (.encodeHeader 3 3 127) (w full []) = .next t' ∧
      t'.result = t.result :=
  ⟨_, _, rfl, rfl, rfl⟩

/-! ### Splitting frames -/

/-- One witness per clause, at lengths 9 and 10. -/
theorem witness_SplitFrameCutsTheFrame :
    (Rules.frameShape none frame9 ∧ frame9.length < 10) ∧
    (Rules.frameShape none frame10 ∧ 10 ≤ frame10.length) ∧
    (frame10[1]? ≠ some ({ w [] [] with params := { params none false with typeTagStd := 0x58 } } : State).params.typeTagStd ∧
      frame10[1]? = some (w [] []).params.typeTagStd ∧
      Rules.textValue (w [] []).params.acceptLowercaseHex ((frame10.drop 2).take 4) = some 0xB780) ∧
    Rules.frameShape none [0x3A, 0x53, 0x42, 0x37, 0x38, 0x47, 0x4E, 0x30, 0x44, 0x3B] ∧
    Rules.textValue (w [] []).params.acceptLowercaseHex
      ((([0x3A, 0x53, 0x42, 0x37, 0x38, 0x47, 0x4E, 0x30, 0x44, 0x3B] : List Byte).drop 2).take 4) = none :=
  ⟨⟨frame9_shape, by decide⟩, ⟨frame10_shape none rfl, by decide⟩, by decide,
    (Laws.frameShape_iff none _).mpr ⟨by decide, rfl⟩, by decide⟩

theorem witness_SplitFrameRefusesNonFrames :
    ¬ Rules.frameShape none [0x3A, 0x3B] ∧ ¬ Rules.frameShape none (frame9 ++ [0x3B]) :=
  ⟨fun h => absurd ((Laws.frameShape_iff none _).mp h).1 (by decide),
    fun h => absurd ((Laws.frameShape_iff none _).mp h).1 (by decide)⟩

theorem witness_ReservedUnitSelectsAreRefused :
    5 ≤ (5 : BitVec 3).toNat ∧ 5 ≤ (7 : BitVec 3).toNat ∧
    (w full [.unitSel 5 UnitPorts.zero]).input = .unitSel 5 UnitPorts.zero :: [] := by decide

theorem witness_FieldsSurviveTheWholePath :
    (w full []).params.typeTagStd ≠ 0x3A ∧ (w full []).params.typeTagStd ≠ 0x3B ∧
    ([0x30, 0x44] : List Byte).all isData = true ∧ 2 ≤ ([0x30, 0x44] : List Byte).length ∧
    ∀ m, (w full []).params.maxFrameLen = some m → ([0x30, 0x44] : List Byte).length + 8 ≤ m :=
  ⟨by decide, by decide, by decide, by decide, by intro m h; cases h; decide⟩

/-! ### Errors -/

/-- One witness per kind. -/
theorem witness_ErrorsAreRaisedOnlyByTheirOperations :
    (∃ t, exec (.splitFrame frame9) (w full []) = .next t ∧ t.result = some (.err .tooShort)) ∧
    (∃ t, exec (.splitFrame [0x3A, 0x58, 0x42, 0x37, 0x38, 0x47, 0x4E, 0x30, 0x44, 0x3B]) (w full []) = .next t ∧
      t.result = some (.err .unsupportedFrameType)) ∧
    (∃ t, exec (.decodeHeader []) (w full []) = .next t ∧ t.result = some (.err .malformedHeader)) ∧
    ∃ t, exec (.encodeHeaderDefault none none 0xEE 0) (w full []) = .next t ∧ t.result = some (.err .unknownOpcode) :=
  ⟨⟨_, rfl, rfl⟩, ⟨_, rfl, rfl⟩, ⟨_, rfl, rfl⟩, ⟨_, rfl, rfl⟩⟩

theorem witness_AnErrorChangesNoState :
    ∃ t, exec (.splitFrame frame9) (w full []) = .next t ∧ t.result = some (.err .tooShort) := ⟨_, rfl, rfl⟩

theorem witness_AFailedOperationLeavesNoTrace :
    ∃ t, exec (.decodeHeader [0x47]) (w full []) = .next t ∧ t.result = some (.err .malformedHeader) := ⟨_, rfl, rfl⟩

/-! ### Whole-machine rules -/

/-- One witness per port, and per outcome. -/
theorem witness_PureOperationsIgnoreTheState :
    ((encode (.decodeHeader [])).port = .unitSel ∧ (encode (.hexdecInvalid 0)).port = .hexChar ∧
      (encode (.hexencLetter 10)).port = .nibble ∧ (w full []).params = (w [] [.rxByte 0]).params) ∧
    (∃ t, exec (.hexdecInvalid 0) (w full []) = .next t) ∧
    ∃ r, exec .unitselReserved5 (w full []) = .refused r :=
  ⟨by decide, ⟨_, rfl⟩, ⟨_, rfl⟩⟩

theorem witness_ParametersAreNeverWritten : ∃ t, step (w full [.rxByte 0x3B]) = .next t := ⟨_, rfl⟩

theorem witness_OutputIsNeverRevised : ∃ t, step (w full [.chunk [0x3B, 0x3B]]) = .next t := ⟨_, rfl⟩

theorem witness_EmissionIsAtomicAndWhole :
    ∃ t, (w full [.rxByte 0x3B]).input = .rxByte 0x3B :: [] ∧ step (w full [.rxByte 0x3B]) = .next t ∧
      t.frameOut = (w full [.rxByte 0x3B]).frameOut ++ [.frame (full ++ [0x3B])] := ⟨_, rfl, rfl, rfl⟩

/-- One witness per clause. -/
theorem witness_StepLooksAtTheOldestDeliveryOnly :
    (∃ t, step { w full [] with input := [.signal 1] } = .next t) ∧
    ∃ r, step { w full [] with input := [.signal 0] } = .refused r := ⟨⟨_, rfl⟩, ⟨_, rfl⟩⟩

theorem witness_EveryStepKeepsTheInvariant :
    (w full [.rxByte 0x39]).Inv ∧ ∃ t, step (w full [.rxByte 0x39]) = .next t := ⟨by decide, _, rfl⟩

/-- Both sides of the equivalence are met, and both fail, in some state of the invariant. -/
theorem witness_StepStopsOnlyOnMeaninglessDeliveries :
    (w full [.unitSel 4 UnitPorts.zero]).Inv ∧ (Transaction.unitSel 4 UnitPorts.zero).hasMeaning = false ∧
    (w full [.chunk []]).Inv ∧ (Transaction.chunk []).hasMeaning = true := by decide

theorem witness_NoMeaningfulRunStops :
    (w full [.rxByte 0x39, .signal 1, .hexChar 0]).Inv ∧
    ∀ x ∈ (w full [.rxByte 0x39, .signal 1, .hexChar 0]).input, x.hasMeaning = true := by decide

theorem witness_InstancesAreIndependent :
    (∃ sys', System.stepAt 1 [w full [], w [] [.rxByte 0x3A]] = .next sys') ∧ 0 ≠ 1 ∧
    [w full [], w [] [.rxByte 0x3A]][1]? = some (w [] [.rxByte 0x3A]) := ⟨⟨_, rfl⟩, by decide, by decide⟩

end Sys2Proof.Tests
end

section
/-! PROOFS. The FrameTokenizer's statements (40_tokenizer.md R101 to R112): what performing a selected operation does, said
once for `exec` and for the step of a received byte; FEED against the run of single bytes; then the settled obligations. -/

namespace Sys2Proof.Machine

/-! ## A selected operation, performed by `exec` and by a step (R108) -/

/-- An emission of nothing leaves the frame output as it was. -/
theorem State.emit_none (s : State) (t : Tokenizer) :
    s.emit t none = { s with tok := t, result := some (.emission none) } := by
  simp [State.emit]

/-- The instruction of the operation a byte selects is performed on that byte. -/
theorem exec_instr_of_select {op : TokOp} {b : Byte} {s : State} (h : selectTok s.view b = some op) :
    exec (op.instr b) s = .next (s.emit (tokAfter op b s.tok) (emissionOf op s.tok.buf)) := by
  rw [← runTok_of_select h]
  rcases selectTok_cases h with
    ⟨rfl, rfl⟩ | ⟨rfl, rfl, -⟩ | ⟨rfl, rfl, -⟩ | ⟨rfl, rfl, -⟩ | ⟨rfl, -⟩ | ⟨rfl, -⟩ | ⟨rfl, -⟩ <;> rfl

theorem decode_rxByte_of_select {v : SelectView} {op : TokOp} {b : Byte} (h : selectTok v b = some op) :
    decode v (.rxByte b) = .ok (op.instr b) := by
  simp [decode, h]

/-- The step of a received byte is its tokenizer step: state and emission together, and the byte is gone. -/
theorem step_of_tokStep {s : State} {b : Byte} {rest : List Transaction} {t : Tokenizer} {e : Option Event}
    (hi : s.input = .rxByte b :: rest) (h : tokStep s.params s.tok b = some (t, e)) :
    step s = .next { s.emit t e with input := rest } := by
  obtain ⟨op, hsel, rfl, rfl⟩ := tokStep_some h
  rw [step_of_decode hi (decode_rxByte_of_select hsel), exec_instr_of_select (s := s.consume) hsel]
  simp [State.emit, State.consume, hi]

/-- The common form of R101 to R107: the selected operation leads to `t`, and the step of the received byte leads to `t`
with the byte consumed. -/
theorem exec_and_step_of_select {op : TokOp} {b : Byte} {s t : State} (h : selectTok s.view b = some op)
    (ht : s.emit (tokAfter op b s.tok) (emissionOf op s.tok.buf) = t) :
    exec (op.instr b) s = .next t ∧ ∀ rest, s.input = .rxByte b :: rest → step s = .next { t with input := rest } := by
  subst ht
  exact ⟨exec_instr_of_select h, fun _ hi => step_of_tokStep hi (tokStep_of_select h)⟩

/-! ## The view of a state in `OUTSIDE` (R23) -/

theorem view_inside_of_outside {s : State} (hs : s.tok = Rules.outside) : s.view.inside = false := by
  simp [hs, Rules.outside]

theorem view_len_of_outside {s : State} (hs : s.tok = Rules.outside) : s.view.len = 0 := by
  simp [hs, Rules.outside]

/-! ## FEED and the run of its bytes (R109) -/

theorem exec_feed_of_feedBytes {s : State} {chunk : List Byte} {t : Tokenizer} {es : List Event}
    (h : feedBytes s.params chunk s.tok = some (t, es)) : exec (.feed chunk) s = .next (s.emitAll t es) := by
  simp [exec, execFeed, h]

/-- A chunk that goes on starts with a byte whose step goes on, and the rest goes on from there. -/
theorem feedBytes_cons_some {p : Params} {b : Byte} {c : List Byte} {t u : Tokenizer} {es : List Event}
    (h : feedBytes p (b :: c) t = some (u, es)) :
    ∃ t' e es', tokStep p t b = some (t', e) ∧ feedBytes p c t' = some (u, es') ∧ es = e.toList ++ es' := by
  cases hs : tokStep p t b with
  | none => simp [feedBytes, hs] at h
  | some r =>
    obtain ⟨⟨v, es'⟩, hc, heq⟩ := Option.map_eq_some_iff.mp (feedBytes_cons hs ▸ h)
    cases heq
    exact ⟨r.1, r.2, es', rfl, hc, rfl⟩

theorem run_succ_of_step {s t : State} (h : step s = .next t) (k : Nat) :
    Sys2Proof.core.run (k + 1) s = Sys2Proof.core.run k t := by
  have hc : Sys2Proof.core.step s = .next t := h
  simp only [Host.Core.run, hc]

/-- R109: bytes delivered one by one take the tokenizer where the chunk takes it and put out the same events. -/
theorem run_of_feedBytes {chunk : List Byte} {s : State} {t : Tokenizer} {es : List Event} {rest : List Transaction}
    (hi : s.input = chunk.map .rxByte ++ rest) (h : feedBytes s.params chunk s.tok = some (t, es)) :
    ∃ u, Sys2Proof.core.run chunk.length s = .next u ∧ u.tok = t ∧ u.frameOut = s.frameOut ++ es ∧ u.input = rest := by
  induction chunk generalizing s es with
  | nil =>
    cases h
    exact ⟨s, rfl, rfl, by simp, hi⟩
  | cons b c ih =>
    obtain ⟨t', e, es', hs, hc, rfl⟩ := feedBytes_cons_some h
    obtain ⟨u, hrun, htok, hout, hin⟩ := ih (s := { s.emit t' e with input := c.map .rxByte ++ rest }) rfl hc
    exact ⟨u, (run_succ_of_step (step_of_tokStep hi hs) c.length).trans hrun, htok, by simpa using hout, hin⟩

/-! ## The settled statements -/

/-- Settles O8: a start marker selects its operation in any state. -/
theorem tokStartRestartsTheBuffer : Obligations.TokStartRestartsTheBuffer := fun s =>
  exec_and_step_of_select (selectTok_start s.view) (State.emit_none s _)

/-- Settles O9: an end marker inside with two bytes or more closes the frame. -/
theorem tokEndEmitPutsOutTheFrame : Obligations.TokEndEmitPutsOutTheFrame := fun s hin hlen =>
  exec_and_step_of_select (selectTok_endEmit (v := s.view) hin hlen) rfl

/-- Settles O11: outside, an end marker is stray. -/
theorem tokEndStrayChangesNothing : Obligations.TokEndStrayChangesNothing := fun s hs =>
  exec_and_step_of_select (selectTok_endStray (view_inside_of_outside hs) (view_len_of_outside hs)) (State.emit_none s _)

/-- Settles O12: the data byte selects the append, and a read of the appended buffer sees it at its index only. -/
theorem tokDataAppendStoresTheByte : Obligations.TokDataAppendStoresTheByte := by
  intro s b hstart hend hin hne hroom
  have hsel : selectTok s.view b = some .append :=
    selectTok_append ((isData_iff b).mpr ⟨hstart, hend⟩) hin (by simpa using hne) ((bufHasRoom_iff _ _).mpr hroom)
  obtain ⟨hexec, hstep⟩ := exec_and_step_of_select hsel (State.emit_none s _)
  refine ⟨_, hexec, ?_, rfl, Memory.read_append_at s.tok.buf b, fun a ha => Memory.read_append_ne s.tok.buf b ha, hstep⟩
  simp [tokAfter, insideAfter, hin]

/-- Settles O14: outside, a data byte is discarded. -/
theorem tokDataDiscardChangesNothing : Obligations.TokDataDiscardChangesNothing := fun s b hstart hend hs =>
  exec_and_step_of_select
    (selectTok_discard ((isData_iff b).mpr ⟨hstart, hend⟩) (view_inside_of_outside hs) (view_len_of_outside hs))
    (State.emit_none s _)

/-- Settles O20: the empty chunk has no step, so it emits nothing from any state. -/
theorem emptyChunkChangesNothing : Obligations.EmptyChunkChangesNothing := by
  intro s
  rw [exec_feed_of_feedBytes (feedBytes_nil s.params s.tok)]
  simp [State.emitAll]

/-- Settles O19: the chunk goes on from a reachable tokenizer, and the run of its bytes follows it step by step. -/
theorem feedIsOneStepPerByte : Obligations.FeedIsOneStepPerByte := by
  intro s chunk hp hinv
  obtain ⟨t, es, hfeed, -, -⟩ := feedBytes_total hp chunk hinv
  obtain ⟨u, hrun, htok, hout, hin⟩ :=
    run_of_feedBytes (s := { s with input := chunk.map .rxByte }) (rest := []) (by simp) hfeed
  exact ⟨_, u, es, exec_feed_of_feedBytes hfeed, hrun, hin, hout, by rw [htok]; rfl⟩

/-- Settles O22: on a reachable tokenizer every byte has a step and every chunk goes on, and both keep it reachable. -/
theorem tokenizerNeverFails : Obligations.TokenizerNeverFails := by
  intro s hp hinv
  constructor
  · intro b rest hi
    obtain ⟨t, e, hs⟩ := tokStep_total hinv b
    exact ⟨_, e, step_of_tokStep hi hs, rfl, (tokStep_keeps_inv hp hinv hs).1⟩
  · intro chunk
    obtain ⟨t, es, hfeed, ht, -⟩ := feedBytes_total hp chunk hinv
    exact ⟨_, es, exec_feed_of_feedBytes hfeed, rfl, ht⟩

end Sys2Proof.Machine
end

section
/-! PROOFS. The HeaderCodec's statements (41_header_codec.md R130, R133, R136, R137, R139): the rule's arithmetic against
the model's header text; data bytes fed behind a start marker; an operation whose outcome the parameters fix; then the
settled obligations. -/

namespace Sys2Proof.Machine

/-! ## The header text over Nat (R132, R133) -/

/-- R132: the shifted fields do not overlap, so their or is their sum. -/
theorem packHeader_toNat (major minor : Prio) (busAddress : BusAddr) :
    (packHeader major minor busAddress).toNat = Rules.packed major minor busAddress := by
  have hmajor := major.isLt
  have hminor := minor.isLt
  have haddr := busAddress.isLt
  have hlow : minor.toNat * 2 ^ 12 ||| busAddress.toNat * 2 ^ 5 = minor.toNat * 2 ^ 12 + busAddress.toNat * 2 ^ 5 := by
    rw [← Nat.shiftLeft_eq minor.toNat, Nat.shiftLeft_add_eq_or_of_lt (by omega)]
  have hall : major.toNat * 2 ^ 14 ||| (minor.toNat * 2 ^ 12 + busAddress.toNat * 2 ^ 5) =
      major.toNat * 2 ^ 14 + (minor.toNat * 2 ^ 12 + busAddress.toNat * 2 ^ 5) := by
    rw [← Nat.shiftLeft_eq major.toNat, Nat.shiftLeft_add_eq_or_of_lt (by omega)]
  simp (disch := omega) only [packHeader, Config.MAJOR_SHIFT, Config.MINOR_SHIFT, Config.ADDR_SHIFT, BitVec.toNat_or,
    BitVec.toNat_shiftLeft, BitVec.toNat_setWidth, Nat.shiftLeft_eq, Nat.mod_eq_of_lt, Nat.or_assoc, hlow, hall,
    Rules.packed, Nat.add_assoc]

/-- R133: the four bit fields of the header value are the rule's four hex digits. -/
theorem headerText_eq_rule (v : HeaderWord) : headerText v = Rules.headerText v.toNat := by
  simp [headerText, Rules.headerText, Laws.hexEnc_eq_hexChar, BitVec.extractLsb'_toNat, Nat.shiftRight_eq_div_pow]

/-- R133: the encoded header is the rule's text of the packed value. -/
theorem encodeHeaderText_eq_rule (major minor : Prio) (busAddress : BusAddr) :
    encodeHeaderText major minor busAddress = Rules.headerText (Rules.packed major minor busAddress) := by
  rw [encodeHeaderText, headerText_eq_rule, packHeader_toNat]

/-! ## A start marker and data, fed on their own (R101, R105, R136) -/

theorem isData_hexEnc (n : Nibble) : isData (hexEnc n) = true := by
  revert n; decide

theorem encodeHeaderText_all_isData (major minor : Prio) (busAddress : BusAddr) :
    (encodeHeaderText major minor busAddress).all isData = true := by
  simp [encodeHeaderText, headerText, isData_hexEnc]

/-- R7: a legal MAX_FRAME_LEN leaves room for every buffer shorter than the shortest frame. -/
theorem bufFits_of_wf {p : Params} (hp : p.wf = true) {n : Nat} (hn : n < Config.MIN_FRAME_LEN) :
    bufFits p.maxFrameLen n = true := by
  refine (bufFits_iff_lt _ _).mpr fun m hm => ?_
  simp only [Params.wf, hm, decide_eq_true_eq] at hp
  omega

/-- A start marker and data that fits open a frame from any state and are held in the buffer. -/
theorem feedBytes_start_data {p : Params} {d : List Byte} (hd : d.all isData = true)
    (hf : bufFits p.maxFrameLen (d.length + 1) = true) (t : Tokenizer) :
    feedBytes p (Config.START :: d) t = some ({ buf := Config.START :: d, inside := true }, []) := by
  rw [feedBytes_cons (tokStep_start p t), feedBytes_data d hd (by simp) (by simpa [Nat.add_comm] using hf)]
  rfl

/-! ## Operations whose outcome the parameters fix (R139, R167) -/

/-- In all states with the parameters `p`, `m` answers one result, or refuses for one reason. -/
def OutcomeFixedBy (p : Params) (m : State → Host.Outcome State Fault Refusal) : Prop :=
  (∃ r, ∀ s, s.params = p → m s = .next (s.answer r)) ∨ ∃ why, ∀ s, s.params = p → m s = .refused why

/-- A value or an error kind in its place (R190) that does not depend on the state. -/
theorem outcomeFixedBy_conclude {α : Type} {p : Params} {m : State → Host.Outcome State Fault Refusal}
    {ok : α → Result} (r : Except ErrKind α) (h : ∀ s, s.params = p → m s = .next (s.conclude ok r)) :
    OutcomeFixedBy p m := by
  cases r with
  | ok a => exact .inl ⟨ok a, h⟩
  | error k => exact .inl ⟨.err k, h⟩

/-- A lower-case row answers or is refused by ACCEPT_LOWERCASE_HEX alone (R73). -/
theorem answerLowercase_outcomeFixedBy (p : Params) (v : Byte) : OutcomeFixedBy p (answerLowercase v) := by
  cases hl : p.acceptLowercaseHex with
  | true => exact .inl ⟨_, fun s hs => answerLowercase_of_accepts (by rw [hs, hl]) v⟩
  | false => exact .inr ⟨_, fun s hs => by rw [answerLowercase, hs, hl]; rfl⟩

theorem execSplitFrame_outcomeFixedBy (p : Params) (f : List Byte) : OutcomeFixedBy p (execSplitFrame f) := by
  cases hf : isFrame f with
  | true => exact outcomeFixedBy_conclude (splitFields p f) fun s hs => by rw [execSplitFrame, hf, hs]; rfl
  | false => exact .inr ⟨_, fun s _ => by rw [execSplitFrame, hf]; rfl⟩

theorem execHexdecInvalid_outcomeFixedBy (p : Params) (c : Byte) : OutcomeFixedBy p (execHexdecInvalid c) := by
  cases hc : isHexByte p.acceptLowercaseHex c with
  | true => exact .inr ⟨_, fun s hs => by rw [execHexdecInvalid, hs, hc]; rfl⟩
  | false => exact .inl ⟨_, fun s hs => by rw [execHexdecInvalid, hs, hc]; rfl⟩

theorem execHexencLetter_of_le {n : Nibble} (hn : 10 ≤ n) (s : State) :
    execHexencLetter n s = .next (s.answer (.char (0x41 + (n.setWidth 8 - 10)))) := if_pos hn

theorem execHexencLetter_outcomeFixedBy (p : Params) (n : Nibble) : OutcomeFixedBy p (execHexencLetter n) := by
  by_cases hn : 10 ≤ n
  · exact .inl ⟨_, fun s _ => execHexencLetter_of_le hn s⟩
  · exact .inr ⟨_, fun s _ => if_neg hn⟩

/-- R139, R167: the outcome of an operation of the three pure ports is fixed by its operands and the parameters. -/
theorem exec_outcomeFixedBy {i : Instr}
    (hi : (encode i).port = .unitSel ∨ (encode i).port = .hexChar ∨ (encode i).port = .nibble) (p : Params) :
    OutcomeFixedBy p (exec i) := by
  cases i with
  | tokStart | tokEndEmit | tokEndNull | tokEndStray | tokDataAppend | tokDataOverflow | tokDataDiscard | feed | reset =>
    simp [encode, Transaction.port] at hi
  | decodeHeader text =>
    exact outcomeFixedBy_conclude (decodeHeaderText p.acceptLowercaseHex text) fun s hs => by subst hs; rfl
  | buildPrefix major minor busAddress =>
    exact .inl ⟨.bytes (prefixText p.typeTagStd major minor busAddress), fun s hs => by subst hs; rfl⟩
  | encodeHeaderDefault major minor opcode busAddress =>
    exact outcomeFixedBy_conclude (encodeHeaderDefaultText p major minor opcode busAddress) fun s hs => by subst hs; rfl
  | splitFrame f => exact execSplitFrame_outcomeFixedBy p f
  | unitselReserved5 | unitselReserved67 => exact .inr ⟨_, fun _ _ => rfl⟩
  | hexdecLowerA | hexdecLowerBC | hexdecLowerDE | hexdecLowerF => exact answerLowercase_outcomeFixedBy p _
  | hexdecInvalid c => exact execHexdecInvalid_outcomeFixedBy p c
  | hexencLetter n => exact execHexencLetter_outcomeFixedBy p n
  | encodeHeader | hexdecDigit07 | hexdecDigit89 | hexdecUpperA | hexdecUpperBC | hexdecUpperDE | hexdecUpperF
  | hexencDigit07 | hexencDigit89 => exact .inl ⟨_, fun _ _ => rfl⟩

/-! ## The rows of HEXENC (R64, R130) -/

theorem exec_hexencDigit07 (d : BitVec 3) (s : State) :
    exec (.hexencDigit07 d) s = .next (s.answer (.char (Rules.hexChar d.toNat))) := by
  have hchar : 0x30 + d.setWidth 8 = Rules.hexChar d.toNat := by revert d; decide
  rw [← hchar]; rfl

theorem exec_hexencDigit89 (d : BitVec 1) (s : State) :
    exec (.hexencDigit89 d) s = .next (s.answer (.char (Rules.hexChar (8 + d.toNat)))) := by
  have hchar : 0x30 + rowByte 0x08 d = Rules.hexChar (8 + d.toNat) := by revert d; decide
  rw [← hchar]; rfl

theorem exec_hexencLetter {n : Nibble} (hn : 10 ≤ n.toNat) (s : State) :
    exec (.hexencLetter n) s = .next (s.answer (.char (Rules.hexChar n.toNat))) := by
  have hchar : 10 ≤ n.toNat → 0x41 + (n.setWidth 8 - 10) = Rules.hexChar n.toNat := by revert n; decide
  rw [← hchar hn]
  exact execHexencLetter_of_le hn s

/-- R64: the row of a nibble, with the nibble's value in the row's operand. -/
theorem decodeNibble_cases (n : Nibble) :
    (∃ d : BitVec 3, decodeNibble n = .hexencDigit07 d ∧ n.toNat = d.toNat) ∨
    (∃ d : BitVec 1, decodeNibble n = .hexencDigit89 d ∧ n.toNat = 8 + d.toNat) ∨
    (decodeNibble n = .hexencLetter n ∧ 10 ≤ n.toNat) := by
  revert n; decide

/-- R130: the row a nibble selects writes the nibble's character. -/
theorem exec_decodeNibble (n : Nibble) (s : State) :
    exec (decodeNibble n) s = .next (s.answer (.char (Rules.hexChar n.toNat))) := by
  rcases decodeNibble_cases n with ⟨d, hrow, hn⟩ | ⟨d, hrow, hn⟩ | ⟨hrow, hn⟩
  · rw [hrow, hn, exec_hexencDigit07]
  · rw [hrow, hn, exec_hexencDigit89]
  · rw [hrow, exec_hexencLetter hn]

/-! ## The settled statements of the header codec -/

/-- Settles O32: the three rows write their characters, and a delivered nibble selects one of them. -/
theorem hexencWritesTheUpperCaseCharacter : Obligations.HexencWritesTheUpperCaseCharacter := fun s =>
  ⟨fun n => ⟨decodeNibble n, rfl, exec_decodeNibble n s⟩, fun d => exec_hexencDigit07 d s,
    fun d => exec_hexencDigit89 d s, fun _ hn => exec_hexencLetter hn s⟩

/-- Settles O36: the written text is the rule's text of the packed value. -/
theorem encodeHeaderWritesThePackedValue : Obligations.EncodeHeaderWritesThePackedValue := by
  intro s major minor busAddress
  rw [← encodeHeaderText_eq_rule]
  rfl

/-- Settles O40: the seven characters are a start marker and six data bytes, which every legal buffer holds. -/
theorem buildPrefixWritesSevenCharacters : Obligations.BuildPrefixWritesSevenCharacters := by
  intro s major minor busAddress text htext
  rw [← encodeHeaderText_eq_rule] at htext
  subst htext
  refine ⟨rfl, fun hp hstart hend => ?_⟩
  have hdata : ([s.params.typeTagStd] ++ encodeHeaderText major minor busAddress ++ [0x4E]).all isData = true := by
    have htag : isData s.params.typeTagStd = true := (isData_iff _).mpr ⟨hstart, hend⟩
    have hflag : isData 0x4E = true := by decide
    simp only [List.all_append, List.all_cons, List.all_nil, htag, encodeHeaderText_all_isData, hflag, Bool.and_self]
  have hfeed := feedBytes_start_data hdata (bufFits_of_wf hp (by simp [Config.MIN_FRAME_LEN])) s.tok
  refine (exec_feed_of_feedBytes hfeed).trans ?_
  simp [State.emitAll, Config.START]

/-- Settles O41: one case per branch of R137, the given minor before the looked-up one. -/
theorem encodeHeaderDefaultFillsInThePriorities : Obligations.EncodeHeaderDefaultFillsInThePriorities := by
  intro s major minor opcode busAddress m
  refine ⟨?_, ?_, ?_⟩
  · rintro n rfl
    rw [← encodeHeaderText_eq_rule]
    rfl
  · rintro n rfl hlookup
    rw [← encodeHeaderText_eq_rule]
    simp only [exec, execEncodeHeaderDefault, encodeHeaderDefaultText, hlookup]
    rfl
  · rintro rfl hlookup
    simp only [exec, execEncodeHeaderDefault, encodeHeaderDefaultText, hlookup]
    rfl

/-- Settles O51: the parameters fix the outcome, so two states that share them get the same one. -/
theorem pureOperationsIgnoreTheState : Obligations.PureOperationsIgnoreTheState := by
  intro i s s' hport hparams
  rcases exec_outcomeFixedBy hport s.params with ⟨r, h⟩ | ⟨why, h⟩
  · rw [h s rfl, h s' hparams.symm]
    refine ⟨?_, fun _ hr => (nomatch hr)⟩
    rintro t ⟨⟩
    exact ⟨rfl, rfl⟩
  · rw [h s rfl, h s' hparams.symm]
    exact ⟨fun _ ht => (nomatch ht), fun _ hr => hr⟩

end Sys2Proof.Machine
end

section
/-! PROOFS. The statements about error kinds (60_exceptions.md R180, R185, R190, R192): which error each function of
the pure units can give; what going on with an error kind says of the instruction and of the next state; then the settled
obligations. -/

namespace Sys2Proof.Machine

/-! ## The error kinds of the pure functions (R181 to R183, R186) -/

theorem decodeHeaderText_error {lowercase : Bool} {text : List Byte} {k : ErrKind}
    (h : decodeHeaderText lowercase text = .error k) : k = .malformedHeader := by
  unfold decodeHeaderText at h
  split at h
  · split at h <;> cases h
    rfl
  · cases h
    rfl

/-- R137, R186: the default encoder fails only in the look-up, which a given minor priority makes unnecessary. -/
theorem encodeHeaderDefaultText_error {p : Params} {major minor : Option Prio} {opcode : Byte} {busAddress : BusAddr}
    {k : ErrKind} (h : encodeHeaderDefaultText p major minor opcode busAddress = .error k) :
    k = .unknownOpcode ∧ minor = none ∧ priorityOf p opcode = none := by
  cases minor with
  | some n => cases h
  | none =>
    simp only [encodeHeaderDefaultText] at h
    split at h
    · cases h
    · next hlookup => cases h; exact ⟨rfl, rfl, hlookup⟩

/-- R189: one kind per check of `SPLIT_FRAME`, the last passed on from the header (R164). -/
theorem splitFields_error {p : Params} {f : List Byte} {k : ErrKind} (h : splitFields p f = .error k) :
    k = .tooShort ∨ k = .unsupportedFrameType ∨ k = .malformedHeader := by
  unfold splitFields at h
  split at h
  · cases h; exact .inl rfl
  · split at h
    · cases h; exact .inr (.inl rfl)
    · split at h
      · next hheader => cases h; exact .inr (.inr (decodeHeaderText_error hheader))
      · cases h

/-! ## An operation that goes on with an error kind (R190) -/

/-- R180: 0 is the code of `Ok`, of no kind. -/
theorem errCode_ne_zero (k : ErrKind) : errCode k ≠ 0 := by
  cases k <;> decide

/-- R190: an operation whose value is no error kind answers an error kind only in the value's place. -/
theorem error_of_conclude_result {α : Type} {ok : α → Result} {r : Except ErrKind α} {s : State} {k : ErrKind}
    (h : (s.conclude ok r).result = some (.err k)) (hok : ∀ a, ok a ≠ .err k) : r = .error k := by
  cases r with
  | ok a => exact absurd (Option.some.inj h) (hok a)
  | error k' => cases h; rfl

/-- R190: of the shapes in which an operation goes on, only the raised error leaves an error kind at the result port. -/
theorem eq_raise_of_result_err {i : Instr} {s t : State} {k : ErrKind} (h : exec i s = .next t)
    (hr : t.result = some (.err k)) : t = s.raise k := by
  rcases exec_next_cases h with ⟨_, _, -, -, rfl⟩ | ⟨_, _, _, -, -, rfl⟩ | ⟨-, rfl⟩ | ⟨r, hport, rfl⟩ | ⟨k', rfl⟩
  · cases hr
  · cases hr
  · cases hr
  · cases hr; exact absurd hport (errCode_ne_zero k)
  · cases hr; rfl

/-- R185: the operations that can leave an error kind, each with the function whose error it passes on. -/
theorem exec_err_cases {i : Instr} {s t : State} {k : ErrKind} (h : exec i s = .next t)
    (hr : t.result = some (.err k)) :
    (∃ text, i = .decodeHeader text ∧ decodeHeaderText s.params.acceptLowercaseHex text = .error k) ∨
    (∃ ma mi o a, i = .encodeHeaderDefault ma mi o a ∧ encodeHeaderDefaultText s.params ma mi o a = .error k) ∨
    ∃ f, i = .splitFrame f ∧ splitFields s.params f = .error k := by
  cases i with
  | decodeHeader text => cases h; exact .inl ⟨text, rfl, error_of_conclude_result hr (fun _ => nofun)⟩
  | encodeHeaderDefault ma mi o a =>
    cases h; exact .inr (.inl ⟨ma, mi, o, a, rfl, error_of_conclude_result hr (fun _ => nofun)⟩)
  | splitFrame f =>
    simp only [exec, execSplitFrame] at h
    split at h
    · cases h; exact .inr (.inr ⟨f, rfl, error_of_conclude_result hr (fun _ => nofun)⟩)
    · cases h
  | tokStart | tokEndEmit | tokEndNull | tokEndStray | tokDataAppend | tokDataOverflow | tokDataDiscard =>
    simp only [exec] at h
    obtain ⟨-, rfl⟩ := runTok_next h
    cases hr
  | hexdecLowerA | hexdecLowerBC | hexdecLowerDE | hexdecLowerF =>
    obtain ⟨-, rfl⟩ := answerLowercase_next h
    cases hr
  | feed | hexdecInvalid | hexencLetter =>
    simp only [exec, execFeed, execHexdecInvalid, execHexencLetter] at h
    split at h <;> cases h
    cases hr
  | unitselReserved5 | unitselReserved67 => cases h
  | encodeHeader | buildPrefix | hexdecDigit07 | hexdecDigit89 | hexdecUpperA | hexdecUpperBC | hexdecUpperDE
  | hexdecUpperF | hexencDigit07 | hexencDigit89 | reset => cases h; cases hr

/-! ## The settled statements about errors -/

/-- Settles O47: the three operations that can leave an error kind, with the kinds their functions give. -/
theorem errorsAreRaisedOnlyByTheirOperations : Obligations.ErrorsAreRaisedOnlyByTheirOperations := by
  intro i s t k h hr
  rcases exec_err_cases h hr with ⟨text, rfl, herr⟩ | ⟨ma, mi, o, a, rfl, herr⟩ | ⟨f, rfl, herr⟩
  · exact .inr (.inr (.inl ⟨decodeHeaderText_error herr, .inr ⟨text, rfl⟩⟩))
  · obtain ⟨hkind, rfl, hlookup⟩ := encodeHeaderDefaultText_error herr
    exact .inr (.inr (.inr ⟨hkind, ma, o, a, rfl, hlookup⟩))
  · rcases splitFields_error herr with hkind | hkind | hkind
    · exact .inl ⟨hkind, f, rfl⟩
    · exact .inr (.inl ⟨hkind, f, rfl⟩)
    · exact .inr (.inr (.inl ⟨hkind, .inl ⟨f, rfl⟩⟩))

/-- Settles O48: the error is raised, and raising writes the result port only. -/
theorem anErrorChangesNoState : Obligations.AnErrorChangesNoState := fun _ _ _ _ h hr => eq_raise_of_result_err h hr

/-- Settles O49: the states before and after differ in the result port only, which no operation reads. -/
theorem aFailedOperationLeavesNoTrace : Obligations.AFailedOperationLeavesNoTrace := by
  intro i j s t k h hr
  rw [eq_raise_of_result_err h hr]
  exact exec_ignores_result j s _

end Sys2Proof.Machine
end

section
/-! PROOFS. The decoder's statements (30_encoding.md R64, R65, R71 to R73): per port, that the decoder and the encoder undo
each other and that what is decoded is selected; the first matching row of the opcode table; then the settled obligations. -/

namespace Sys2Proof

open Machine

/-! ## The received byte (R71) -/

/-- R71: the selected operation's instruction is encoded by the byte, well formed, and selected in the view. -/
theorem encode_instr_of_select {v : SelectView} {b : Byte} {op : TokOp} (h : selectTok v b = some op) :
    encode (op.instr b) = .rxByte b ∧ (op.instr b).wf = true ∧ (op.instr b).selectedIn v = true := by
  rcases selectTok_cases h with ⟨rfl, rfl⟩ | ⟨rfl, rfl, hin, hlen⟩ | ⟨rfl, rfl, hin, hlen⟩ | ⟨rfl, rfl, hin, hlen⟩ |
    ⟨rfl, hb, hin, hlen, hroom⟩ | ⟨rfl, hb, hin, hlen, hfull⟩ | ⟨rfl, hb, hin, hlen⟩
  · exact ⟨rfl, rfl, rfl⟩
  · exact ⟨rfl, rfl, by simp [TokOp.instr, Instr.selectedIn, hin, hlen]⟩
  · exact ⟨rfl, rfl, by simp [TokOp.instr, Instr.selectedIn, hin, hlen]⟩
  · exact ⟨rfl, rfl, by simp [TokOp.instr, Instr.selectedIn, hin, hlen]⟩
  · exact ⟨rfl, hb, by simp [TokOp.instr, Instr.selectedIn, hin, hlen, hroom]⟩
  · exact ⟨rfl, hb, by simp [TokOp.instr, Instr.selectedIn, hin, hlen, hfull]⟩
  · exact ⟨rfl, hb, by simp [TokOp.instr, Instr.selectedIn, hin, hlen]⟩

/-- R108: on a reachable tokenizer every byte selects an operation. -/
theorem selectTok_total {s : State} (hinv : s.tok.inv s.params = true) (b : Byte) : ∃ op, selectTok s.view b = some op := by
  obtain ⟨t, e, hstep⟩ := tokStep_total hinv b
  obtain ⟨op, hsel, -, -⟩ := tokStep_some hstep
  exact ⟨op, hsel⟩

/-- A received byte decodes to the operation it selects and to nothing else. -/
theorem decode_rxByte_eq_ok {v : SelectView} {b : Byte} {i : Instr} (h : decode v (.rxByte b) = .ok i) :
    ∃ op, selectTok v b = some op ∧ i = op.instr b := by
  cases hsel : selectTok v b with
  | some op => exact ⟨op, rfl, by simpa [decode, hsel] using h.symm⟩
  | none => simp [decode, hsel] at h

/-! ## The unit select (R72) -/

/-- R137: an optional argument is read back from its presence line and its value, whatever value stands for none. -/
@[simp] theorem optionalPort_isSome_getD (o : Option Prio) (d : Prio) : optionalPort o.isSome (o.getD d) = o := by
  cases o <;> rfl

@[simp] theorem isSome_optionalPort (given : Bool) (value : Prio) : (optionalPort given value).isSome = given := by
  cases given <;> rfl

@[simp] theorem optionalPort_true (value : Prio) : optionalPort true value = some value := rfl

theorem unitSelect_cases (op : BitVec 3) :
    op = 0 ∨ op = 1 ∨ op = 2 ∨ op = 3 ∨ op = 4 ∨ op = 5 ∨ op = 6 ∨ op = 7 := by
  revert op; decide

/-- R72: the encoding carries the unit-select number and the operand ports that number reads. -/
theorem encode_decodeUnit (op : BitVec 3) (x : UnitPorts) :
    ∃ y, encode (decodeUnit op x) = .unitSel op y ∧ Rules.agreeWhereRead op x y := by
  rcases unitSelect_cases op with rfl | rfl | rfl | rfl | rfl | rfl | rfl | rfl <;>
    refine ⟨_, rfl, ?_⟩ <;>
    simp +contextual [Rules.agreeWhereRead]

/-- Only `SPLIT_FRAME` of a sequence that is no frame comes ill formed from the unit select. -/
theorem decodeUnit_wf (op : BitVec 3) (x : UnitPorts) :
    (decodeUnit op x).wf = true ∨ ∃ f, decodeUnit op x = .splitFrame f ∧ isFrame f = false := by
  rcases unitSelect_cases op with rfl | rfl | rfl | rfl | rfl | rfl | rfl | rfl
  pick_goal 5
  · cases hf : isFrame x.bytes with
    | true => exact .inl hf
    | false => exact .inr ⟨x.bytes, rfl, hf⟩
  all_goals exact .inl rfl

theorem decodeUnit_selected (op : BitVec 3) (x : UnitPorts) (v : SelectView) : (decodeUnit op x).selectedIn v = true := by
  rcases unitSelect_cases op with rfl | rfl | rfl | rfl | rfl | rfl | rfl | rfl <;> rfl

/-- R72: the operands the encoder puts on the ports are the ones the decoder reads. -/
theorem decode_encode_decodeUnit (op : BitVec 3) (x : UnitPorts) (v : SelectView) :
    decode v (encode (decodeUnit op x)) = .ok (decodeUnit op x) := by
  rcases unitSelect_cases op with rfl | rfl | rfl | rfl | rfl | rfl | rfl | rfl
  pick_goal 4
  · exact congrArg Except.ok (congrArg₂ (Instr.encodeHeaderDefault · · x.opcode x.busAddress)
      (optionalPort_isSome_getD _ 0) (optionalPort_isSome_getD _ 0))
  all_goals rfl

/-! ## The hex character and the nibble (R64, R65) -/

/-! R73: a row's byte decodes to the row; the lower-case rows only where ACCEPT_LOWERCASE_HEX holds. -/

theorem decodeHexChar_rowByte07 (l : Bool) (d : BitVec 3) : decodeHexChar l (rowByte 0x30 d) = .hexdecDigit07 d := by
  revert l d; decide

theorem decodeHexChar_rowByte (l : Bool) (d : BitVec 1) :
    decodeHexChar l (rowByte 0x38 d) = .hexdecDigit89 d ∧ decodeHexChar l (rowByte 0x42 d) = .hexdecUpperBC d ∧
    decodeHexChar l (rowByte 0x44 d) = .hexdecUpperDE d ∧ decodeHexChar true (rowByte 0x62 d) = .hexdecLowerBC d ∧
    decodeHexChar true (rowByte 0x64 d) = .hexdecLowerDE d := by
  revert l d; decide

theorem decodeHexChar_of_not_isHexByte {lowercase : Bool} {c : Byte} (h : isHexByte lowercase c = false) :
    decodeHexChar lowercase c = .hexdecInvalid c := by
  revert lowercase c; decide

/-- A row of `HEXCHAR` that applies under ACCEPT_LOWERCASE_HEX is the one its byte decodes to. -/
theorem decode_encode_hexChar {i : Instr} (hi : (encode i).port = .hexChar) {v : SelectView}
    (hs : i.selectedIn v = true) : decode v (encode i) = .ok i := by
  obtain ⟨ins, len, m, l⟩ := v
  cases i with
  | hexdecDigit07 d => exact congrArg Except.ok (decodeHexChar_rowByte07 l d)
  | hexdecDigit89 d => exact congrArg Except.ok (decodeHexChar_rowByte l d).1
  | hexdecUpperBC d => exact congrArg Except.ok (decodeHexChar_rowByte l d).2.1
  | hexdecUpperDE d => exact congrArg Except.ok (decodeHexChar_rowByte l d).2.2.1
  | hexdecLowerA | hexdecLowerF => obtain rfl : l = true := hs; rfl
  | hexdecLowerBC d => obtain rfl : l = true := hs; exact congrArg Except.ok (decodeHexChar_rowByte true d).2.2.2.1
  | hexdecLowerDE d => obtain rfl : l = true := hs; exact congrArg Except.ok (decodeHexChar_rowByte true d).2.2.2.2
  | hexdecInvalid c => exact congrArg Except.ok (decodeHexChar_of_not_isHexByte (by simpa [Instr.selectedIn] using hs))
  | hexdecUpperA | hexdecUpperF => rfl
  | _ => simp [encode, Transaction.port] at hi

theorem encode_decodeNibble (n : Nibble) : encode (decodeNibble n) = .nibble n := by
  revert n; decide

theorem decodeNibble_wf (n : Nibble) : (decodeNibble n).wf = true := by
  revert n; decide

theorem decodeNibble_selected (n : Nibble) (v : SelectView) : (decodeNibble n).selectedIn v = true := by
  rcases decodeNibble_cases n with ⟨d, hrow, -⟩ | ⟨d, hrow, -⟩ | ⟨hrow, -⟩ <;> rw [hrow] <;> rfl

theorem decode_encode_hexencDigit07 (v : SelectView) (d : BitVec 3) :
    decode v (encode (.hexencDigit07 d)) = .ok (.hexencDigit07 d) := by
  have hrow : decodeNibble (d.setWidth 4) = .hexencDigit07 d := by revert d; decide
  exact congrArg Except.ok hrow

theorem decode_encode_hexencDigit89 (v : SelectView) (d : BitVec 1) :
    decode v (encode (.hexencDigit89 d)) = .ok (.hexencDigit89 d) := by
  have hrow : decodeNibble (0b100#3 ++ d) = .hexencDigit89 d := by revert d; decide
  exact congrArg Except.ok hrow

theorem decode_encode_hexencLetter (v : SelectView) {n : Nibble} (hn : 10 ≤ n) :
    decode v (encode (.hexencLetter n)) = .ok (.hexencLetter n) := by
  have hrow : 10 ≤ n → decodeNibble n = .hexencLetter n := by revert n; decide
  exact congrArg Except.ok (hrow hn)

/-- At every port but the unit select, the decoded instruction is encoded by the delivery, well formed and selected. -/
theorem decode_ok_of_port {v : SelectView} {x : Transaction} {i : Instr} (hd : decode v x = .ok i)
    (hp : x.port ≠ .unitSel) : encode i = x ∧ i.wf = true ∧ i.selectedIn v = true := by
  cases x with
  | rxByte b =>
    obtain ⟨op, hsel, rfl⟩ := decode_rxByte_eq_ok hd
    exact encode_instr_of_select hsel
  | unitSel op x => exact absurd rfl hp
  | hexChar c => cases hd; exact ⟨encode_decodeHexChar _ c, decodeHexChar_selected v c⟩
  | nibble n => cases hd; exact ⟨encode_decodeNibble n, decodeNibble_wf n, decodeNibble_selected n v⟩
  | chunk bytes => cases hd; exact ⟨rfl, rfl, rfl⟩
  | signal level =>
    simp only [decode] at hd
    split at hd
    · next hl => cases hd; exact ⟨by rw [hl]; rfl, rfl, rfl⟩
    · cases hd

/-! ## The first matching row of the opcode table (R71 to R73) -/

/-- The rows of the opcode table at one port, in the table's order. -/
def rowsOf : Port → List Row
  | .rxByte => rxByteRows
  | .unitSel => unitSelRows
  | .hexChar => hexCharRows
  | .nibble => nibbleRows
  | .chunk => [(Instr.feed []).row]
  | .signal => [Instr.reset.row]

/-- Whether a row of the right port takes a word. -/
def Row.matches (v : SelectView) (w : Byte) (r : Row) : Bool := (w &&& r.mask) == r.pattern && r.cond.holds v

/-- A delivery looks for its row among those of its own port. -/
theorem firstRow_eq_find_rowsOf (v : SelectView) (x : Transaction) :
    firstRow v x = (rowsOf x.port).find? (Row.matches v x.word) := by
  cases x <;>
  simp [firstRow, opcodeTable, rowsOf, Transaction.port, rxByteRows, unitSelRows, hexCharRows, nibbleRows, Instr.row,
    Row.takes, Row.matches, List.find?_cons, List.find?_nil]

theorem find_matches_cons (v : SelectView) (w : Byte) (r : Row) (rows : List Row) :
    (r :: rows).find? (Row.matches v w) =
      if w &&& r.mask = r.pattern ∧ r.cond.holds v = true then some r else rows.find? (Row.matches v w) := by
  rw [List.find?_cons]
  split <;> simp_all [Row.matches]

/-! The two masks that are not a pattern of their own: all bits, and none. -/

theorem and_allOnes (b : Byte) : b &&& 0xFF = b := by revert b; decide

theorem and_none (b : Byte) : b &&& 0 = 0 := BitVec.and_zero

/-- R72: the decoder's chain of tests is the table's. -/
theorem row_decodeUnit (v : SelectView) (op : BitVec 3) (x : UnitPorts) :
    some (decodeUnit op x).row = firstRow v (.unitSel op x) := by
  rw [firstRow_eq_find_rowsOf]
  simp only [decodeUnit, apply_ite Instr.row, apply_ite some]
  simp only [rowsOf, Transaction.port, unitSelRows, Transaction.word, find_matches_cons, List.find?_nil, Instr.row,
    RowCond.holds, and_true]
  revert op
  decide

/-- R73: where ACCEPT_LOWERCASE_HEX is false the lower-case rows are passed over, and the decoder answers the last row. -/
theorem row_decodeHexChar (v : SelectView) (c : Byte) :
    some (decodeHexChar v.acceptLowercaseHex c).row = firstRow v (.hexChar c) := by
  rw [firstRow_eq_find_rowsOf]
  simp only [decodeHexChar, apply_ite Instr.row, apply_ite some]
  cases hl : v.acceptLowercaseHex <;>
  simp only [rowsOf, Transaction.port, hexCharRows, Transaction.word, find_matches_cons, List.find?_nil, Instr.row,
    RowCond.holds, hl, and_allOnes, and_none, and_true, and_false, if_true, if_false, Bool.false_eq_true, ite_self]

theorem row_decodeNibble (v : SelectView) (n : Nibble) : some (decodeNibble n).row = firstRow v (.nibble n) := by
  rw [firstRow_eq_find_rowsOf]
  simp only [rowsOf, Transaction.port, nibbleRows, Transaction.word, find_matches_cons, List.find?_nil, Instr.row,
    RowCond.holds, and_true]
  revert n
  decide

theorem row_decode_chunk (v : SelectView) (bytes : List Byte) :
    some (Instr.feed bytes).row = firstRow v (.chunk bytes) := by
  rw [firstRow_eq_find_rowsOf]
  simp only [rowsOf, Transaction.port, Transaction.word, find_matches_cons, Instr.row, RowCond.holds, and_none, and_true,
    if_true]

theorem row_decode_signal (v : SelectView) (level : BitVec 1) :
    (decode v (.signal level)).toOption.map Instr.row = firstRow v (.signal level) := by
  rw [firstRow_eq_find_rowsOf]
  simp only [rowsOf, Transaction.port, Transaction.word, find_matches_cons, List.find?_nil, Instr.row, RowCond.holds,
    and_true, decode]
  revert level
  decide

/-- R71, R23: in a coherent view only a data byte inside, behind a buffer that neither has room nor is full, selects nothing. -/
theorem selectTok_eq_none {v : SelectView} {b : Byte} (hv : v.coherent = true) (h : selectTok v b = none) :
    isData b = true ∧ v.inside = true ∧ bufHasRoom v.maxFrameLen v.len = false ∧
      bufIsFull v.maxFrameLen v.len = false := by
  simp only [selectTok, hv, Bool.not_true, Bool.false_eq_true, if_false] at h
  split_ifs at h with hstart hend _ _ hin hroom hfull
  exact ⟨(isData_iff b).mpr ⟨hstart, hend⟩, by simpa using hin, by simpa using hroom, by simpa using hfull⟩

/-- R71, R23: in a coherent view the conditions of the seven rows are those of the selection. -/
theorem row_decode_rxByte {v : SelectView} (hv : v.coherent = true) (b : Byte) :
    (decode v (.rxByte b)).toOption.map Instr.row = firstRow v (.rxByte b) := by
  rw [firstRow_eq_find_rowsOf]
  simp only [rowsOf, Transaction.port, rxByteRows, Transaction.word, find_matches_cons, List.find?_nil, Instr.row,
    RowCond.holds, and_allOnes, and_none, and_true, true_and]
  have hdata : isData b = true → b ≠ 0x3A#8 ∧ b ≠ 0x3B#8 := (isData_iff b).mp
  cases hsel : selectTok v b with
  | some op =>
    rw [decode_rxByte_of_select hsel]
    rcases selectTok_cases hsel with ⟨rfl, rfl⟩ | ⟨rfl, rfl, hin, hlen⟩ | ⟨rfl, rfl, hin, hlen⟩ |
      ⟨rfl, rfl, hin, hlen⟩ | ⟨rfl, hb, hin, hlen, hroom⟩ | ⟨rfl, hb, hin, hlen, hfull⟩ | ⟨rfl, hb, hin, hlen⟩
    · simp [TokOp.instr, Except.toOption, Instr.row, Config.START]
    · simp [TokOp.instr, Except.toOption, Instr.row, Config.END, hin, hlen]
    · simp [TokOp.instr, Except.toOption, Instr.row, Config.END, hin, hlen]
    · simp [TokOp.instr, Except.toOption, Instr.row, Config.END, hin]
    · simp [TokOp.instr, Except.toOption, Instr.row, hdata hb, hin, hroom]
    · have hroom : bufHasRoom v.maxFrameLen v.len = false :=
        Bool.eq_false_iff.mpr fun h => by simp [not_full_of_hasRoom h] at hfull
      simp [TokOp.instr, Except.toOption, Instr.row, hdata hb, hin, hroom, hfull]
    · simp [TokOp.instr, Except.toOption, Instr.row, hdata hb, hin]
  | none =>
    obtain ⟨hb, hin, hroom, hfull⟩ := selectTok_eq_none hv hsel
    simp [decode, hsel, Except.toOption, hdata hb, hin, hroom, hfull]

/-! ## The settled statements -/

/-- Settles O4: port by port, an encoding selects its instruction in the views that admit it. -/
theorem decodeOfEncodeIsTheInstruction : Obligations.DecodeOfEncodeIsTheInstruction := by
  intro v i hw hs
  cases i with
  | tokStart => exact decode_rxByte_of_select (selectTok_start v)
  | tokEndEmit =>
    obtain ⟨hin, hlen⟩ : v.inside = true ∧ 2 ≤ v.len := by simpa [Instr.selectedIn] using hs
    exact decode_rxByte_of_select (selectTok_endEmit hin hlen)
  | tokEndNull =>
    obtain ⟨hin, hlen⟩ : v.inside = true ∧ v.len = 1 := by simpa [Instr.selectedIn] using hs
    exact decode_rxByte_of_select (selectTok_endNull hin hlen)
  | tokEndStray =>
    obtain ⟨hout, hlen⟩ : v.inside = false ∧ v.len = 0 := by simpa [Instr.selectedIn] using hs
    exact decode_rxByte_of_select (selectTok_endStray hout hlen)
  | tokDataAppend b =>
    obtain ⟨⟨hin, hlen⟩, hroom⟩ : (v.inside = true ∧ v.len ≠ 0) ∧ bufHasRoom v.maxFrameLen v.len = true := by
      simpa [Instr.selectedIn] using hs
    exact decode_rxByte_of_select (selectTok_append hw hin hlen hroom)
  | tokDataOverflow b =>
    obtain ⟨⟨hin, hlen⟩, hfull⟩ : (v.inside = true ∧ v.len ≠ 0) ∧ bufIsFull v.maxFrameLen v.len = true := by
      simpa [Instr.selectedIn] using hs
    exact decode_rxByte_of_select (selectTok_overflow hw hin hlen hfull)
  | tokDataDiscard b =>
    obtain ⟨hout, hlen⟩ : v.inside = false ∧ v.len = 0 := by simpa [Instr.selectedIn] using hs
    exact decode_rxByte_of_select (selectTok_discard hw hout hlen)
  | encodeHeaderDefault major minor opcode busAddress => simp [encode, decode, decodeUnit]
  | unitselReserved67 low =>
    have hrow : ∀ low : BitVec 1, decodeUnit (0b11#2 ++ low) UnitPorts.zero = .unitselReserved67 low := by decide
    exact congrArg Except.ok (hrow low)
  | encodeHeader | decodeHeader | buildPrefix | splitFrame | unitselReserved5 | feed | reset => rfl
  | hexencDigit07 d => exact decode_encode_hexencDigit07 v d
  | hexencDigit89 d => exact decode_encode_hexencDigit89 v d
  | hexencLetter n => exact decode_encode_hexencLetter v (of_decide_eq_true hw)
  | _ => exact decode_encode_hexChar rfl hs

/-- Settles O5: at the unit select by its operands, at the other ports because the encoding is the delivery. -/
theorem encodeOfDecodeIsTheDelivery : Obligations.EncodeOfDecodeIsTheDelivery := by
  intro v x i hd
  cases x with
  | unitSel op x =>
    cases hd
    obtain ⟨y, he, hy⟩ := encode_decodeUnit op x
    refine ⟨by rw [he]; rfl, by rw [he]; rfl, decodeUnit_selected op x v, fun hp => absurd rfl hp, ?_,
      decode_encode_decodeUnit op x v, decodeUnit_wf op x⟩
    rintro _ _ ⟨⟩
    exact ⟨y, he, hy⟩
  | rxByte | hexChar | nibble | chunk | signal =>
    obtain ⟨he, hw, hs⟩ := decode_ok_of_port hd nofun
    exact ⟨by rw [he], by rw [he], hs, fun _ => he, nofun, he ▸ hd, .inl hw⟩

/-- Settles O6: port by port, the decoder's chain of tests is the table's chain of rows. -/
theorem decodeTakesTheFirstMatchingRow : Obligations.DecodeTakesTheFirstMatchingRow := by
  intro v x hv
  cases x with
  | rxByte b => exact row_decode_rxByte hv b
  | unitSel op x => exact row_decodeUnit v op x
  | hexChar c => exact row_decodeHexChar v c
  | nibble n => exact row_decodeNibble v n
  | chunk bytes => exact row_decode_chunk v bytes
  | signal level => exact row_decode_signal v level

/-- Settles O7: each clause is the selection lemma of its row, and a reachable tokenizer always has a step. -/
theorem tokenizerSelectionFollowsTheTable : Obligations.TokenizerSelectionFollowsTheTable := by
  intro s b hinv
  have hne : s.tok.inside = true → s.view.len ≠ 0 := by
    intro hin
    rcases Tokenizer.inv_cases hinv with h | ⟨d, h, -⟩ <;> simp [h] at hin ⊢
  have hempty : s.tok.inside = false → s.view.len = 0 := by
    intro hout
    rcases Tokenizer.inv_cases hinv with h | ⟨d, h, -⟩ <;> simp [h] at hout ⊢
  refine ⟨?_, ?_, ?_, ?_, ?_, ?_, ?_, ?_⟩
  · rintro rfl
    exact decode_rxByte_of_select (selectTok_start _)
  · rintro rfl hin hlen
    exact decode_rxByte_of_select (selectTok_endEmit (v := s.view) hin hlen)
  · rintro rfl hin hlen
    exact decode_rxByte_of_select (selectTok_endNull (v := s.view) hin hlen)
  · rintro rfl hout
    exact decode_rxByte_of_select (selectTok_endStray (v := s.view) hout (hempty hout))
  · intro hstart hend hin hroom
    exact decode_rxByte_of_select (selectTok_append (v := s.view) ((isData_iff b).mpr ⟨hstart, hend⟩) hin (hne hin)
      ((bufHasRoom_iff _ _).mpr hroom))
  · intro hstart hend hin hmax
    exact decode_rxByte_of_select (selectTok_overflow (v := s.view) ((isData_iff b).mpr ⟨hstart, hend⟩) hin (hne hin)
      (by simp [hmax, bufIsFull]))
  · intro hstart hend hout
    exact decode_rxByte_of_select (selectTok_discard (v := s.view) ((isData_iff b).mpr ⟨hstart, hend⟩) hout (hempty hout))
  · obtain ⟨op, hsel⟩ := selectTok_total hinv b
    exact ⟨_, decode_rxByte_of_select hsel⟩

/-- Settles O15: the byte selects an operation, and by O4 no other decodes from it. -/
theorem tokenizerStepIsTotalAndUnambiguous : Obligations.TokenizerStepIsTotalAndUnambiguous := by
  intro s b rest hp hinv hi
  obtain ⟨op, hsel⟩ := selectTok_total hinv b
  have hstep := tokStep_of_select (p := s.params) hsel
  refine ⟨⟨op.instr b, encode_instr_of_select hsel, ?_⟩, _, step_of_tokStep hi hstep, (tokStep_keeps_inv hp hinv hstep).1⟩
  intro j hj hw hs
  have hdj : decode s.view (.rxByte b) = .ok j := hj ▸ decodeOfEncodeIsTheInstruction s.view j hw hs
  rw [decode_rxByte_of_select hsel] at hdj
  exact (Except.ok.inj hdj).symm

/-- Settles O1: the words are read off the tables one by one. -/
theorem specWordsDecodeToTheirInstructions : Obligations.SpecWordsDecodeToTheirInstructions := by
  unfold Obligations.SpecWordsDecodeToTheirInstructions
  decide

/-- Settles O60: the ports of R72, one number at a time. -/
theorem unitSelectPortsAreTheOperands : Obligations.UnitSelectPortsAreTheOperands := by
  intro v x
  refine ⟨rfl, rfl, rfl, ⟨_, _, rfl, ?_, ?_, ?_, ?_⟩, rfl⟩ <;> intro h <;> rw [h] <;> rfl

end Sys2Proof
end

section
/-! PROOFS. The streams of the FrameTokenizer (40_tokenizer.md R103 to R114, 70_reset_and_hazards.md R210, R217, R222): what
a chunk of a frame, of an overlong frame and of garbage does from any state; FEED in two parts; then the settled obligations. -/

namespace Sys2Proof.Machine

/-! ## FEED, inverted (R109, R111) -/

/-- FEED goes on exactly where its bytes' steps do, with their emissions. -/
theorem exec_feed_next_iff {s t : State} {chunk : List Byte} :
    exec (.feed chunk) s = .next t ↔ ∃ u es, feedBytes s.params chunk s.tok = some (u, es) ∧ t = s.emitAll u es := by
  constructor
  · intro h
    simp only [exec, execFeed] at h
    split at h
    · next u es hf => cases h; exact ⟨u, es, hf, rfl⟩
    · cases h
  · rintro ⟨u, es, hf, rfl⟩
    exact exec_feed_of_feedBytes hf

theorem exec_feed_of_none {s : State} {chunk : List Byte} (h : feedBytes s.params chunk s.tok = none) :
    exec (.feed chunk) s = .refused (.noOperation .unreachableState) := by
  simp [exec, execFeed, h]

/-- A chunk in two parts goes on exactly where both parts do, one from where the other ended. -/
theorem feedBytes_append_eq_some_iff {p : Params} {a c : List Byte} {t u : Tokenizer} {es : List Event} :
    feedBytes p (a ++ c) t = some (u, es) ↔
      ∃ v ea ec, feedBytes p a t = some (v, ea) ∧ feedBytes p c v = some (u, ec) ∧ es = ea ++ ec := by
  rw [feedBytes_append]
  constructor
  · intro h
    obtain ⟨⟨v, ea⟩, ha, h⟩ := Option.bind_eq_some_iff.mp h
    obtain ⟨⟨w, ec⟩, hc, h⟩ := Option.map_eq_some_iff.mp h
    cases h
    exact ⟨v, ea, ec, ha, hc, rfl⟩
  · rintro ⟨v, ea, ec, ha, hc, rfl⟩
    simp [ha, hc]

/-- Two parts that go on, put together. -/
theorem feedBytes_append_of {p : Params} {a c : List Byte} {t v u : Tokenizer} {ea ec : List Event}
    (ha : feedBytes p a t = some (v, ea)) (hc : feedBytes p c v = some (u, ec)) :
    feedBytes p (a ++ c) t = some (u, ea ++ ec) :=
  feedBytes_append_eq_some_iff.mpr ⟨v, ea, ec, ha, hc, rfl⟩

/-! ## Whole frames, from any state (R106, R113, R114) -/

/-- R102: the end marker behind a start marker and data closes the frame. -/
theorem tokStep_endEmit (p : Params) {d : List Byte} (hne : d ≠ []) :
    tokStep p { buf := Config.START :: d, inside := true } Config.END =
      some (Rules.outside, some (.frame (Config.START :: (d ++ [Config.END])))) := by
  have hlen : 2 ≤ (Config.START :: d).length := Nat.succ_le_succ (List.length_pos_iff.mpr hne)
  exact tokStep_of_select (selectTok_endEmit (v := Tokenizer.view p ⟨Config.START :: d, true⟩) rfl hlen)

/-- R106: a data byte behind a full buffer drops it. -/
theorem tokStep_overflow {p : Params} {buf : List Byte} {b : Byte} (hb : isData b = true) (hne : buf ≠ [])
    (hfull : bufIsFull p.maxFrameLen buf.length = true) :
    tokStep p { buf := buf, inside := true } b = some (Rules.outside, some .overflow) :=
  tokStep_of_select (selectTok_overflow (v := Tokenizer.view p ⟨buf, true⟩) hb rfl (by simpa using hne) hfull)

/-- R113: a byte string of the frame shape is emitted, alone, from any state. -/
theorem feedBytes_of_frameShape {p : Params} {f : List Byte} (h : Rules.frameShape p.maxFrameLen f) (t : Tokenizer) :
    feedBytes p f t = some (Rules.outside, [.frame f]) := by
  obtain ⟨hframe, hfits⟩ := (Laws.frameShape_iff _ _).mp h
  obtain ⟨d, rfl, hne, hd⟩ := (isFrame_iff f).mp hframe
  have hopen := feedBytes_start_data (p := p) hd (by simpa using hfits) t
  have hclose := feedBytes_cons (rest := []) (tokStep_endEmit p hne)
  simpa using feedBytes_append_of hopen hclose

/-- A data byte is no start marker. -/
theorem start_not_mem_of_all_isData {d : List Byte} (hd : d.all isData = true) : Config.START ∉ d := fun h => by
  simpa using List.all_eq_true.mp hd _ h

/-- R222: data that does not fit MAX_FRAME_LEN drops the frame at the first byte without room; the rest is garbage. -/
theorem feedBytes_overlong {p : Params} {m : Nat} (hmax : p.maxFrameLen = some m) (hm : 2 ≤ m) {d : List Byte}
    (hd : d.all isData = true) (hlong : m < d.length + 2) (t : Tokenizer) :
    feedBytes p (Config.START :: (d ++ [Config.END])) t = some (Rules.outside, [.overflow]) := by
  obtain ⟨held, b, rest, rfl, hheld⟩ : ∃ held b rest, d = held ++ b :: rest ∧ held.length = m - 2 :=
    ⟨d.take (m - 2), d[m - 2], d.drop (m - 2 + 1), by simp, by simp; omega⟩
  simp only [List.all_append, List.all_cons, Bool.and_eq_true] at hd
  obtain ⟨hdheld, hdb, hdrest⟩ := hd
  have hopen := feedBytes_start_data (p := p) hdheld ((bufFits_iff_lt _ _).mpr (by simp [hmax]; omega)) t
  have hfull : bufIsFull p.maxFrameLen (Config.START :: held).length = true := by simp [hmax, bufIsFull]; omega
  have hgarbage : feedBytes p (rest ++ [Config.END]) Rules.outside = some (Rules.outside, []) :=
    feedBytes_garbage _ (by simp [start_not_mem_of_all_isData hdrest, start_ne_end])
  have hdrop := (feedBytes_cons (rest := rest ++ [Config.END]) (tokStep_overflow hdb (by simp) hfull))
  rw [hgarbage] at hdrop
  simpa using feedBytes_append_of hopen hdrop

/-! ## The settled statements of the tokenizer -/

/-- Settles O10: an end marker right behind the start marker. -/
theorem tokEndNullLeavesTheFrameSilently : Obligations.TokEndNullLeavesTheFrameSilently := fun s hin hlen =>
  exec_and_step_of_select (selectTok_endNull (v := s.view) hin hlen) (State.emit_none s _)

/-- Settles O13: a data byte behind a full buffer. -/
theorem tokDataOverflowDropsTheFrame : Obligations.TokDataOverflowDropsTheFrame := by
  intro s b m hstart hend hin hne hmax hlen
  have hpos := List.length_pos_iff.mpr hne
  have hfull : bufIsFull s.params.maxFrameLen s.tok.buf.length = true := by simp [hmax, bufIsFull]; omega
  exact exec_and_step_of_select
    (selectTok_overflow (v := s.view) ((isData_iff b).mpr ⟨hstart, hend⟩) hin (by simpa using hne) hfull) rfl

/-- R23: flag and buffer at odds, and no start marker: nothing is selected. -/
theorem selectTok_of_not_coherent {v : SelectView} {b : Byte} (hv : v.coherent = false) (hb : b ≠ Config.START) :
    selectTok v b = none := by
  simp [selectTok, hv, hb]

/-- Settles O16: an incoherent view selects nothing, for the step of the byte and for a chunk that begins with it. -/
theorem unreachableTokenizerStatesAreRefused : Obligations.UnreachableTokenizerStatesAreRefused := by
  intro s b hodd hb
  have hv : s.view.coherent = false := by
    cases hbuf : s.tok.buf <;> simpa [SelectView.coherent, hbuf] using hodd
  have hsel : selectTok s.view b = none := selectTok_of_not_coherent hv hb
  constructor
  · intro rest hi
    simp [step, hi, decode, hsel]
  · intro chunk
    have hstep : tokStep s.params s.tok b = none := by
      rw [State.view] at hsel
      simp [tokStep, hsel]
    exact exec_feed_of_none (by simp [feedBytes, hstep])

/-- Settles O21: both sides say where the two parts of the chunk lead, and with which emissions. -/
theorem feedIsIndependentOfFragmentation : Obligations.FeedIsIndependentOfFragmentation := by
  intro s a c t
  constructor
  · intro h
    obtain ⟨u, es, hf, rfl⟩ := exec_feed_next_iff.mp h
    obtain ⟨v, ea, ec, ha, hc, rfl⟩ := feedBytes_append_eq_some_iff.mp hf
    exact ⟨s.emitAll v ea, (s.emitAll v ea).emitAll u ec, ea, ec, exec_feed_of_feedBytes ha, rfl,
      exec_feed_of_feedBytes (s := s.emitAll v ea) hc, rfl, by simp [State.emitAll]⟩
  · rintro ⟨sa, sc, ea, ec, ha, hra, hc, hrc, rfl⟩
    obtain ⟨v, ea', hfa, rfl⟩ := exec_feed_next_iff.mp ha
    obtain ⟨u, ec', hfc, rfl⟩ := exec_feed_next_iff.mp hc
    cases hra
    cases hrc
    rw [exec_feed_of_feedBytes (feedBytes_append_of hfa hfc)]
    simp [State.emitAll]

/-- Settles O24: the tokenizer's run over the frame, as FEED. -/
theorem everyFrameShapedChunkIsEmitted : Obligations.EveryFrameShapedChunkIsEmitted := fun s _ hf =>
  exec_feed_of_feedBytes (feedBytes_of_frameShape hf s.tok)

/-- Settles O25: garbage, frame, garbage, frame, each from `OUTSIDE`. -/
theorem garbageAroundFramesIsDropped : Obligations.GarbageAroundFramesIsDropped := by
  intro s g₁ f₁ g₂ f₂ hs hg₁ hg₂ hf₁ hf₂
  have hrun : feedBytes s.params (g₁ ++ f₁ ++ g₂ ++ f₂) Rules.outside =
      some (Rules.outside, [] ++ [.frame f₁] ++ [] ++ [.frame f₂]) :=
    feedBytes_append_of (feedBytes_append_of (feedBytes_append_of (feedBytes_garbage g₁ hg₁)
      (feedBytes_of_frameShape hf₁ _)) (feedBytes_garbage g₂ hg₂)) (feedBytes_of_frameShape hf₂ _)
  exact exec_feed_of_feedBytes (hs ▸ hrun)

/-- Settles O26: the unfinished frame is held without an emission, and the frame's start marker drops it. -/
theorem restartDropsThePartialFrame : Obligations.RestartDropsThePartialFrame := by
  intro s d f hd hfits hf
  have hheld := feedBytes_start_data (p := s.params) hd ((bufFits_iff_lt _ _).mpr fun m hm => hfits m hm) s.tok
  exact exec_feed_of_feedBytes (feedBytes_append_of hheld (feedBytes_of_frameShape hf _))

/-- Settles O27: the tokenizer's run over the overlong frame, as FEED. -/
theorem overlongFrameYieldsOneOverflow : Obligations.OverlongFrameYieldsOneOverflow := fun s _ _ hmax hm hd hlong =>
  exec_feed_of_feedBytes (feedBytes_overlong hmax hm hd hlong s.tok)

/-- Settles O28: with an infinite MAX_FRAME_LEN there is room for all the data. -/
theorem unterminatedFrameIsHeld : Obligations.UnterminatedFrameIsHeld := by
  intro s d hmax hin hne hd
  have hrun := feedBytes_data (p := s.params) d hd hne (by simp [hmax, bufFits])
  rw [← hin] at hrun
  rw [exec_feed_of_feedBytes hrun]
  simp [State.emitAll, hin]

/-- The instruction of a tokenizer operation performs that operation. -/
theorem exec_eq_runTok {i : Instr} {op : TokOp} {b : Byte} (h : tokOpOf i = some (op, b)) (s : State) :
    exec i s = runTok op b s := by
  cases i <;> cases h <;> rfl

/-- R22: after a tokenizer operation that goes on, the flag is what the operation makes of it. -/
theorem inside_of_tokOpOf {i : Instr} {op : TokOp} {b : Byte} {s t : State} (hop : tokOpOf i = some (op, b))
    (h : exec i s = .next t) : t.tok.inside = insideAfter op s.tok.inside := by
  rw [exec_eq_runTok hop] at h
  rw [(runTok_next h).2]
  rfl

/-- Settles O18: the flag after each tokenizer operation and RESET; an answer or an error leaves the tokenizer alone. -/
theorem onlyTheNamedOperationsWriteTheFlag : Obligations.OnlyTheNamedOperationsWriteTheFlag := by
  intro i s t h
  refine ⟨?_, ?_, ?_⟩
  · rintro rfl
    exact inside_of_tokOpOf rfl h
  · rintro (rfl | rfl | ⟨b, rfl⟩ | rfl)
    · exact inside_of_tokOpOf rfl h
    · exact inside_of_tokOpOf rfl h
    · exact inside_of_tokOpOf rfl h
    · cases h; rfl
  · intro hfeed hstart hemit hnull hover hreset
    rcases exec_next_cases h with ⟨op, b, hop, -, rfl⟩ | ⟨chunk, _, _, rfl, -⟩ | ⟨rfl, -⟩ | ⟨r, -, rfl⟩ | ⟨k, rfl⟩
    · cases i with
      | tokEndStray | tokDataAppend | tokDataDiscard => cases hop; rfl
      | _ => simp_all [tokOpOf]
    · exact absurd rfl (hfeed chunk)
    · exact absurd rfl hreset
    · rfl
    · rfl

/-! ## The settled statements of the reset -/

/-- Settles O29: RESET as an operation, and the step of the asserted reset input. -/
theorem resetReturnsTheTokenizerToOutside : Obligations.ResetReturnsTheTokenizerToOutside := by
  intro s
  refine ⟨rfl, fun rest hi => ?_⟩
  rw [step_of_decode hi (i := .reset) rfl]
  simp [exec, execReset, State.consume, hi, Rules.outside]

/-- Settles O30: the values the model's reset state is built from. -/
theorem resetStateIsOutsideWithNothingEmitted : Obligations.ResetStateIsOutsideWithNothingEmitted :=
  ⟨rfl, rfl, State.reset_frameOut⟩

/-- Settles O31: legal parameters, and with them the reachable tokenizer of R29. -/
theorem resetStateSatisfiesTheInvariant : Obligations.ResetStateSatisfiesTheInvariant :=
  ⟨rfl, Tokenizer.inv_outside rfl, rfl⟩

end Sys2Proof.Machine
end

section
/-! PROOFS. The HexCodec and the header text (41_header_codec.md R130 to R138): what the row of a hex character answers; the
header text read back, over Nat; then the settled obligations. -/

namespace Sys2Proof.Machine

/-! ## The rows of HEXDEC (R65, R131) -/

/-! R131: the value of each row's byte, as the row computes it. -/

theorem hexDec_rowByte07 (lowercase : Bool) (d : BitVec 3) :
    hexDec lowercase (rowByte 0x30 d) = some ((rowByte 0x30 d - 0x30).setWidth 4) := by
  revert lowercase d; decide

theorem hexDec_rowByte89 (lowercase : Bool) (d : BitVec 1) :
    hexDec lowercase (rowByte 0x38 d) = some ((rowByte 0x38 d - 0x30).setWidth 4) := by
  revert lowercase d; decide

theorem hexDec_rowByteUpper (lowercase : Bool) (d : BitVec 1) :
    hexDec lowercase (rowByte 0x42 d) = some ((rowByte 0x42 d - 0x41 + 10).setWidth 4) ∧
    hexDec lowercase (rowByte 0x44 d) = some ((rowByte 0x44 d - 0x41 + 10).setWidth 4) := by
  revert lowercase d; decide

theorem hexDec_rowByteLower (d : BitVec 1) :
    hexDec true (rowByte 0x62 d) = some ((rowByte 0x62 d - 0x61 + 10).setWidth 4) ∧
    hexDec true (rowByte 0x64 d) = some ((rowByte 0x64 d - 0x61 + 10).setWidth 4) := by
  revert d; decide

/-- A lower-case row, where it applies, answers what `HEXDEC` gives its byte. -/
theorem answerLowercase_eq {s : State} {c v : Byte} (hl : s.params.acceptLowercaseHex = true)
    (hc : hexDec true c = some (v.setWidth 4)) :
    answerLowercase v s = .next (s.answer (.nibble (hexDec s.params.acceptLowercaseHex c))) := by
  rw [answerLowercase_of_accepts hl, hl, hc]
  rfl

/-- R131: a row that applies answers the value of its byte, `Invalid` for the last row. -/
theorem exec_hexChar_of_selected {i : Instr} {c : Byte} {s : State} (hc : encode i = .hexChar c)
    (hs : i.selectedIn s.view = true) :
    exec i s = .next (s.answer (.nibble (hexDec s.params.acceptLowercaseHex c))) := by
  cases i with
  | hexdecDigit07 d => cases hc; rw [hexDec_rowByte07]; rfl
  | hexdecDigit89 d => cases hc; rw [hexDec_rowByte89]; rfl
  | hexdecUpperA | hexdecUpperF => cases hc; rfl
  | hexdecUpperBC d => cases hc; rw [(hexDec_rowByteUpper _ d).1]; rfl
  | hexdecUpperDE d => cases hc; rw [(hexDec_rowByteUpper _ d).2]; rfl
  | hexdecLowerA | hexdecLowerF => cases hc; exact answerLowercase_eq hs rfl
  | hexdecLowerBC d => cases hc; exact answerLowercase_eq hs (hexDec_rowByteLower d).1
  | hexdecLowerDE d => cases hc; exact answerLowercase_eq hs (hexDec_rowByteLower d).2
  | hexdecInvalid c =>
    cases hc
    have hc : isHexByte s.params.acceptLowercaseHex c = false := by simpa [Instr.selectedIn] using hs
    have hnone : hexDec s.params.acceptLowercaseHex c = none := by simpa [isHexByte] using hc
    simp [exec, execHexdecInvalid, hc, hnone]
  | _ => cases hc

/-- R131: the row a delivered character selects answers its value. -/
theorem exec_decodeHexChar_value (s : State) (c : Byte) :
    exec (decodeHexChar s.params.acceptLowercaseHex c) s =
      .next (s.answer (.nibble (hexDec s.params.acceptLowercaseHex c))) :=
  exec_hexChar_of_selected (encode_decodeHexChar _ c) (decodeHexChar_selected s.view c).2

/-- R131: the step of a delivered character answers its value and changes nothing else. -/
theorem step_hexChar {s : State} {c : Byte} {rest : List Transaction} (hi : s.input = .hexChar c :: rest) :
    step s = .next { s with
      input := rest, result := some (.nibble (hexDec s.params.acceptLowercaseHex c)) } := by
  rw [step_of_decode hi rfl, State.view_acceptLowercaseHex]
  refine (exec_decodeHexChar_value s.consume c).trans ?_
  simp [State.answer, State.consume, hi]

/-- A row that applies answers `n` where its byte has the value `n`. -/
theorem exec_hexChar_eq {i : Instr} {c : Byte} {s : State} {n : Option Nibble} (hc : encode i = .hexChar c)
    (hs : i.selectedIn s.view = true) (hn : hexDec s.params.acceptLowercaseHex c = n) :
    exec i s = .next { s with result := some (.nibble n) } := by
  rw [exec_hexChar_of_selected hc hs, hn]
  rfl

/-! ## The header text read back (R67, R134) -/

/-- R67: the value of four nibbles, over Nat. -/
theorem headerValue_ofNat {k₀ k₁ k₂ k₃ : Nat} (h₀ : k₀ < 16) (h₁ : k₁ < 16) (h₂ : k₂ < 16) (h₃ : k₃ < 16) :
    headerValue (.ofNat 4 k₀) (.ofNat 4 k₁) (.ofNat 4 k₂) (.ofNat 4 k₃) =
      BitVec.ofNat 16 (k₀ * 2 ^ 12 + k₁ * 2 ^ 8 + k₂ * 2 ^ 4 + k₃) := by
  have hnib : ∀ i k v : Nat, v / 2 ^ i % 16 = k → v < 2 ^ 16 → (BitVec.ofNat 16 v).extractLsb' i 4 = BitVec.ofNat 4 k := by
    intro i k v hk hv
    apply BitVec.eq_of_toNat_eq
    simp only [BitVec.extractLsb'_toNat, BitVec.toNat_ofNat, Nat.shiftRight_eq_div_pow, Nat.mod_eq_of_lt hv]
    omega
  rw [← headerValue_nibbles (BitVec.ofNat 16 _), hnib 12 k₀ _ (by omega) (by omega), hnib 8 k₁ _ (by omega) (by omega),
    hnib 4 k₂ _ (by omega) (by omega), hnib 0 k₃ _ (by omega) (by omega)]

/-- R68: the rule's fields are the model's. -/
theorem unpackHeader_ofNat {v : Nat} (hv : v < 2 ^ 16) : unpackHeader (.ofNat 16 v) = Rules.fields v := by
  simp only [unpackHeader, Rules.fields, HeaderFields.mk.injEq]
  refine ⟨?_, ?_, ?_⟩ <;> apply BitVec.eq_of_toNat_eq <;>
    simp only [BitVec.extractLsb'_toNat, BitVec.toNat_ofNat, Nat.shiftRight_eq_div_pow, Nat.mod_eq_of_lt hv, Nat.mod_mod]

/-- R134: the model's decoder is the rule's: the fields of the text's value, or `MalformedHeader`. -/
theorem decodeHeaderText_eq_rule (lowercase : Bool) (text : List Byte) :
    decodeHeaderText lowercase text =
      (Rules.textValue lowercase text).elim (.error .malformedHeader) fun v => .ok (Rules.fields v) := by
  match text with
  | [c₀, c₁, c₂, c₃] =>
    simp only [decodeHeaderText, Rules.textValue, Laws.hexDec_eq_hexValue]
    cases h₀ : Rules.hexValue lowercase c₀ with
    | none => rfl
    | some k₀ =>
    cases h₁ : Rules.hexValue lowercase c₁ with
    | none => rfl
    | some k₁ =>
    cases h₂ : Rules.hexValue lowercase c₂ with
    | none => rfl
    | some k₂ =>
    cases h₃ : Rules.hexValue lowercase c₃ with
    | none => rfl
    | some k₃ =>
    have l₀ := Laws.hexValue_lt h₀
    have l₁ := Laws.hexValue_lt h₁
    have l₂ := Laws.hexValue_lt h₂
    have l₃ := Laws.hexValue_lt h₃
    simp only [Option.map_some, Option.elim_some, headerValue_ofNat l₀ l₁ l₂ l₃]
    rw [unpackHeader_ofNat (by omega)]
  | [] | [_] | [_, _] | [_, _, _] | _ :: _ :: _ :: _ :: _ :: _ => rfl

theorem decodeHeaderText_of_value {lowercase : Bool} {text : List Byte} {v : Nat}
    (h : Rules.textValue lowercase text = some v) : decodeHeaderText lowercase text = .ok (Rules.fields v) := by
  rw [decodeHeaderText_eq_rule, h]
  rfl

theorem decodeHeaderText_of_no_value {lowercase : Bool} {text : List Byte}
    (h : Rules.textValue lowercase text = none) : decodeHeaderText lowercase text = .error .malformedHeader := by
  rw [decodeHeaderText_eq_rule, h]
  rfl

/-- R131 corner case (a), for the rule's value. -/
theorem hexValue_hexChar (lowercase : Bool) {k : Nat} (hk : k < 16) :
    Rules.hexValue lowercase (Rules.hexChar k) = some k := by
  have hall : ∀ (l : Bool) (k : Fin 16), Rules.hexValue l (Rules.hexChar k) = some k.val := by decide
  exact hall lowercase ⟨k, hk⟩

/-- R133, R134: the text written for a header value has that value. -/
theorem textValue_headerText (lowercase : Bool) {v : Nat} (hv : v < 2 ^ 16) :
    Rules.textValue lowercase (Rules.headerText v) = some v := by
  have hlt : ∀ n, n % 16 < 16 := fun n => Nat.mod_lt n (by decide)
  simp only [Rules.textValue, Rules.headerText, hexValue_hexChar lowercase (hlt _), Option.some.injEq]
  omega

/-- R62, R75: the packed value is a 16-bit word whose low five bits are zero. -/
theorem packed_le (major minor : Prio) (busAddress : BusAddr) : Rules.packed major minor busAddress ≤ 0xFFE0 := by
  have := major.isLt
  have := minor.isLt
  have := busAddress.isLt
  simp only [Rules.packed]
  omega

theorem packed_mod (major minor : Prio) (busAddress : BusAddr) : Rules.packed major minor busAddress % 32 = 0 := by
  simp only [Rules.packed]
  omega

/-- R133: no character of a written header is a lower-case digit. -/
theorem encodeHeaderText_le (major minor : Prio) (busAddress : BusAddr) :
    ∀ c ∈ encodeHeaderText major minor busAddress, c.toNat ≤ 0x46 := by
  have hchar : ∀ n : Nibble, (hexEnc n).toNat ≤ 0x46 := by decide
  simp [encodeHeaderText, headerText, hchar]

/-- R135: the written header decodes to its fields. -/
theorem decodeHeaderText_encodeHeaderText (lowercase : Bool) (major minor : Prio) (busAddress : BusAddr) :
    decodeHeaderText lowercase (encodeHeaderText major minor busAddress) = .ok ⟨major, minor, busAddress⟩ := by
  rw [encodeHeaderText, decode_headerText, unpack_pack]

/-- R138: different fields are written differently. -/
theorem encodeHeaderText_injective {major minor major' minor' : Prio} {busAddress busAddress' : BusAddr}
    (h : encodeHeaderText major' minor' busAddress' = encodeHeaderText major minor busAddress) :
    major' = major ∧ minor' = minor ∧ busAddress' = busAddress := by
  have hdec := decodeHeaderText_encodeHeaderText false major' minor' busAddress'
  rw [h, decodeHeaderText_encodeHeaderText] at hdec
  cases hdec
  exact ⟨rfl, rfl, rfl⟩

/-- R138: the four digits of a packed value. -/
theorem headerText_packed (major minor : Prio) (busAddress : BusAddr) :
    Rules.headerText (Rules.packed major minor busAddress) =
      [Rules.hexChar (major.toNat * 4 + minor.toNat), Rules.hexChar (busAddress.toNat / 8),
        Rules.hexChar (busAddress.toNat % 8 * 2), 0x30] := by
  have hma := major.isLt
  have hmi := minor.isLt
  have ha := busAddress.isLt
  have h₀ : Rules.packed major minor busAddress / 2 ^ 12 % 16 = major.toNat * 4 + minor.toNat := by
    simp only [Rules.packed]; omega
  have h₁ : Rules.packed major minor busAddress / 2 ^ 8 % 16 = busAddress.toNat / 8 := by
    simp only [Rules.packed]; omega
  have h₂ : Rules.packed major minor busAddress / 2 ^ 4 % 16 = busAddress.toNat % 8 * 2 := by
    simp only [Rules.packed]; omega
  have h₃ : Rules.packed major minor busAddress % 16 = 0 := by
    simp only [Rules.packed]; omega
  rw [Rules.headerText, h₀, h₁, h₂, h₃]
  rfl

/-! ## The settled statements of the hex and the header codec -/

/-- Settles O33: the decoded row answers the byte's value, and the model's value is the rule's. -/
theorem hexdecAnswersTheValueOfTheByte : Obligations.HexdecAnswersTheValueOfTheByte := by
  intro s c
  refine ⟨_, rfl, ?_⟩
  rw [← Laws.hexDec_eq_hexValue]
  exact exec_decodeHexChar_value s c

/-- Settles O34: row by row, the value of the row's byte. -/
theorem hexdecRowsAnswerTheirValues : Obligations.HexdecRowsAnswerTheirValues := by
  intro s
  refine ⟨fun d => ?_, fun d => ?_, rfl, fun d => ?_, fun d => ?_, rfl, fun hl => ⟨?_, fun d => ?_, fun d => ?_, ?_⟩,
    fun c hc => ?_⟩
  · exact exec_hexChar_eq rfl rfl ((hexDec_rowByte07 _ d).trans (by revert d; decide))
  · exact exec_hexChar_eq rfl rfl ((hexDec_rowByte89 _ d).trans (by revert d; decide))
  · exact exec_hexChar_eq rfl rfl ((hexDec_rowByteUpper _ d).1.trans (by revert d; decide))
  · exact exec_hexChar_eq rfl rfl ((hexDec_rowByteUpper _ d).2.trans (by revert d; decide))
  · exact answerLowercase_of_accepts hl _
  · exact exec_hexChar_eq rfl hl (hl ▸ (hexDec_rowByteLower d).1.trans (by revert d; decide))
  · exact exec_hexChar_eq rfl hl (hl ▸ (hexDec_rowByteLower d).2.trans (by revert d; decide))
  · exact answerLowercase_of_accepts hl _
  · have hnone : hexDec s.params.acceptLowercaseHex c = none := by rw [Laws.hexDec_eq_hexValue, hc]; rfl
    have hrow : isHexByte s.params.acceptLowercaseHex c = false := by rw [isHexByte, hnone]; rfl
    exact ⟨congrArg Except.ok (decodeHexChar_of_not_isHexByte hrow),
      exec_hexChar_eq rfl (by simp [Instr.selectedIn, hrow]) hnone⟩

/-- Settles O35: the step of the nibble writes its character, and the step of that character answers the nibble. -/
theorem hexdecUndoesHexenc : Obligations.HexdecUndoesHexenc := by
  intro s n rest hi
  refine ⟨_, Rules.hexChar n.toNat, (step_of_decode hi rfl).trans (exec_decodeNibble n _), rfl, ?_⟩
  rw [step_hexChar rfl, ← Laws.hexEnc_eq_hexChar, hexDec_hexEnc]

/-- Settles O37: the sum, its bound, and the fields back. -/
theorem packingIsExact : Obligations.PackingIsExact := fun major minor busAddress =>
  ⟨packHeader_toNat major minor busAddress, packed_le major minor busAddress, unpack_pack major minor busAddress⟩

/-- Settles O38: the text has a value or it has none. -/
theorem decodeHeaderReadsTheFields : Obligations.DecodeHeaderReadsTheFields := by
  intro s text
  simp only [exec, execDecodeHeader]
  cases hv : Rules.textValue s.params.acceptLowercaseHex text with
  | some v => rw [decodeHeaderText_of_value hv]; rfl
  | none => rw [decodeHeaderText_of_no_value hv]; rfl

/-- Settles O39: the written header decodes to its fields; a text that is a written header is upper case and has the
packed value. -/
theorem headerRoundTrip : Obligations.HeaderRoundTrip := by
  constructor
  · intro s major minor busAddress
    refine ⟨_, _, rfl, rfl, ?_⟩
    simp only [exec, execDecodeHeader, decodeHeaderText_encodeHeaderText]
    rfl
  · intro s t u text h _ _ henc htext
    cases henc
    cases htext
    refine ⟨encodeHeaderText_le _ _ _, fun v hv => ?_⟩
    have hpacked := packed_le h.major h.minor h.busAddress
    rw [encodeHeaderText_eq_rule, textValue_headerText _ (by omega)] at hv
    cases hv
    exact packed_mod _ _ _

/-- Settles O42: the four digits of the packed value, and the round trip for the second part. -/
theorem encoderResultsHaveTheirShape : Obligations.EncoderResultsHaveTheirShape := by
  intro s t major minor busAddress ht
  cases ht
  refine ⟨⟨Rules.hexChar (busAddress.toNat % 8 * 2), ?_, ?_⟩, ?_⟩
  · rw [← headerText_packed, ← encodeHeaderText_eq_rule]
    rfl
  · have hall : ∀ k : Fin 8, Rules.hexChar (k.val * 2) ∈ ([0x30, 0x32, 0x34, 0x36, 0x38, 0x41, 0x43, 0x45] : List Byte) := by
      decide
    exact hall ⟨busAddress.toNat % 8, Nat.mod_lt _ (by decide)⟩
  · rintro major' minor' busAddress' t' ⟨⟩ hresult
    exact encodeHeaderText_injective (Result.bytes.inj (Option.some.inj hresult))

end Sys2Proof.Machine
end

section
/-! PROOFS. FrameSplit (42_frame_split.md R160, R161; 60_exceptions.md R180, R189) and the unit selects that stop (30_encoding.md
R79): the checks of a split one by one, what the unit select's operation can answer; then the settled obligations. -/

namespace Sys2Proof.Machine

/-! ## The checks of SPLIT_FRAME in their order (R161, R189) -/

/-- R160: a split of a frame answers its fields or the first failing check's kind. -/
theorem exec_splitFrame_of_isFrame {f : List Byte} (hf : isFrame f = true) (s : State) :
    exec (.splitFrame f) s = .next (s.conclude .split (splitFields s.params f)) := if_pos hf

theorem exec_splitFrame_of_not_isFrame {f : List Byte} (hf : isFrame f = false) (s : State) :
    exec (.splitFrame f) s = .refused .notAFrame := by
  simp [exec, execSplitFrame, hf]

theorem splitFields_of_short {p : Params} {f : List Byte} (h : f.length < 10) : splitFields p f = .error .tooShort :=
  if_pos h

theorem splitFields_of_tag_ne {p : Params} {f : List Byte} (hlen : 10 ≤ f.length) (htag : f[1]? ≠ some p.typeTagStd) :
    splitFields p f = .error .unsupportedFrameType := by
  have hlong : ¬ f.length < Config.MIN_FRAME_LEN := by simpa [Config.MIN_FRAME_LEN] using hlen
  have hne : f.getD 1 0 ≠ p.typeTagStd := by
    rintro h
    apply htag
    rw [List.getElem?_eq_getElem (by omega), ← h, List.getD_eq_getElem _ _ (by omega)]
  rw [splitFields, if_neg hlong, if_pos (bne_iff_ne.mpr hne)]

/-- Past the first two checks the header decides (R164). -/
theorem splitFields_of_tag {p : Params} {f : List Byte} (hlen : 10 ≤ f.length) (htag : f[1]? = some p.typeTagStd) :
    splitFields p f =
      (decodeHeaderText p.acceptLowercaseHex ((f.drop 2).take 4)).map fun h =>
        { tag := p.typeTagStd, major := h.major, minor := h.minor, busAddress := h.busAddress
          flag := f.getD 6 0, body := slice f 7 (f.length - 1) } := by
  have hlong : ¬ f.length < Config.MIN_FRAME_LEN := by simpa [Config.MIN_FRAME_LEN] using hlen
  have heq : f.getD 1 0 = p.typeTagStd := by simp [List.getD_eq_getElem?_getD, htag]
  have hslice : slice f 2 6 = (f.drop 2).take 4 := List.drop_take
  simp only [splitFields, hlong, if_false, heq, bne_self_eq_false, Bool.false_eq_true, hslice]
  cases decodeHeaderText p.acceptLowercaseHex ((f.drop 2).take 4) <;> rfl

/-- R161: the body is the frame from index 7 up to its end marker. -/
theorem slice_body_getElem? (f : List Byte) {k : Nat} (hk : k < f.length - 8) :
    (slice f 7 (f.length - 1))[k]? = f[k + 7]? := by
  rw [slice, List.getElem?_drop, List.getElem?_take_of_lt (by omega), Nat.add_comm]

theorem slice_body_length (f : List Byte) : (slice f 7 (f.length - 1)).length = f.length - 8 := by
  simp [slice]
  omega

/-! ## What the unit select's operation can answer (R72, R79, R160) -/

/-- R79: a reserved number is refused by its own number. -/
theorem exec_unitselReserved67 (low : BitVec 1) (s : State) :
    exec (.unitselReserved67 low) s = .refused (.reservedUnitSelect (BitVec.ofNat 3 (6 + low.toNat))) := by
  have hop : 0b11#2 ++ low = BitVec.ofNat 3 (6 + low.toNat) := by revert low; decide
  exact congrArg (fun op => Host.Outcome.refused (Refusal.reservedUnitSelect op)) hop

/-- R190: a value or an error kind in its place is one answer. -/
theorem State.conclude_eq_answer {α : Type} (s : State) (ok : α → Result) (r : Except ErrKind α) :
    ∃ r', s.conclude ok r = s.answer r' := by
  cases r with
  | ok a => exact ⟨ok a, rfl⟩
  | error k => exact ⟨.err k, rfl⟩

/-- The unit select answers a value or an error kind, or it is refused: as no frame, or as a reserved number. -/
theorem exec_decodeUnit_cases (op : BitVec 3) (x : UnitPorts) (s : State) :
    ((Transaction.unitSel op x).hasMeaning = true ∧ ∃ r, exec (decodeUnit op x) s = .next (s.answer r)) ∨
    ((Transaction.unitSel op x).hasMeaning = false ∧
      (exec (decodeUnit op x) s = .refused .notAFrame ∨
        5 ≤ op.toNat ∧ exec (decodeUnit op x) s = .refused (.reservedUnitSelect op))) := by
  rcases unitSelect_cases op with rfl | rfl | rfl | rfl | rfl | rfl | rfl | rfl
  · exact .inl ⟨rfl, _, rfl⟩
  · exact .inl ⟨rfl, (s.conclude_eq_answer _ _).imp fun _ h => congrArg Host.Outcome.next h⟩
  · exact .inl ⟨rfl, _, rfl⟩
  · exact .inl ⟨rfl, (s.conclude_eq_answer _ _).imp fun _ h => congrArg Host.Outcome.next h⟩
  · cases hf : isFrame x.bytes with
    | true =>
      exact .inl ⟨by simp [Transaction.hasMeaning, hf], (s.conclude_eq_answer _ _).imp fun _ h =>
        (exec_splitFrame_of_isFrame hf s).trans (congrArg Host.Outcome.next h)⟩
    | false => exact .inr ⟨by simp [Transaction.hasMeaning, hf], .inl (exec_splitFrame_of_not_isFrame hf s)⟩
  · exact .inr ⟨rfl, .inr ⟨by decide, rfl⟩⟩
  · exact .inr ⟨rfl, .inr ⟨by decide, rfl⟩⟩
  · exact .inr ⟨rfl, .inr ⟨by decide, rfl⟩⟩

/-! ## A prefixed body as a frame (R113, R136, R161) -/

/-- R160: what `BUILD_PREFIX` wrote, a body and an end marker, as a start marker, content and an end marker. -/
theorem prefixed_eq (tag : Byte) (major minor : Prio) (busAddress : BusAddr) (body : List Byte) :
    prefixText tag major minor busAddress ++ body ++ [Config.END] =
      Config.START :: (([tag] ++ encodeHeaderText major minor busAddress ++ [Config.FLAG_N] ++ body) ++ [Config.END]) := by
  simp [prefixText]

/-- R113: a body of data behind the seven characters of `BUILD_PREFIX` makes a frame that fits. -/
theorem frameShape_prefixed {m : Option Nat} {tag : Byte} (htag : isData tag = true) (major minor : Prio)
    (busAddress : BusAddr) {body : List Byte} (hbody : body.all isData = true)
    (hfits : ∀ k, m = some k → body.length + 8 ≤ k) :
    Rules.frameShape m (prefixText tag major minor busAddress ++ body ++ [Config.END]) := by
  refine (Laws.frameShape_iff _ _).mpr ⟨(isFrame_iff _).mpr ⟨_, prefixed_eq .., by simp, ?_⟩, (frameFits_iff _ _).mpr ?_⟩
  · have hflag : isData Config.FLAG_N = true := by decide
    simp only [List.all_append, List.all_cons, List.all_nil, htag, encodeHeaderText_all_isData, hflag, hbody, Bool.and_self]
  · intro k hk
    have := hfits k hk
    simp only [prefixText, List.length_append, List.length_cons, List.length_nil, encodeHeaderText_length]
    omega

/-- R161: the split of a prefixed body gives back what `BUILD_PREFIX` was given. -/
theorem splitFields_prefixed (p : Params) (major minor : Prio) (busAddress : BusAddr) {body : List Byte}
    (hlen : 2 ≤ body.length) :
    splitFields p (prefixText p.typeTagStd major minor busAddress ++ body ++ [Config.END]) =
      .ok ⟨p.typeTagStd, major, minor, busAddress, Config.FLAG_N, body⟩ := by
  rw [splitFields_of_tag (by simp [prefixText]; omega) (by simp [prefixText])]
  obtain ⟨c₀, c₁, c₂, c₃, hfour⟩ : ∃ c₀ c₁ c₂ c₃, encodeHeaderText major minor busAddress = [c₀, c₁, c₂, c₃] :=
    ⟨_, _, _, _, rfl⟩
  have hdecode := decodeHeaderText_encodeHeaderText p.acceptLowercaseHex major minor busAddress
  rw [hfour] at hdecode
  simp [prefixText, hfour, slice, hdecode, Except.map]

/-! ## The settled statements of the frame split and the unit select -/

/-- Settles O43: one clause per check, in the order of R189. -/
theorem splitFrameCutsTheFrame : Obligations.SplitFrameCutsTheFrame := by
  intro s f hshape
  have hexec := exec_splitFrame_of_isFrame ((Laws.frameShape_iff none f).mp hshape).1 s
  refine ⟨fun hshort => ?_, fun hlen htag => ?_, fun hlen htag hno => ?_, fun v hlen htag hv => ?_⟩
  · rw [hexec, splitFields_of_short hshort]
    rfl
  · rw [hexec, splitFields_of_tag_ne hlen htag]
    rfl
  · rw [hexec, splitFields_of_tag hlen htag, decodeHeaderText_of_no_value hno]
    rfl
  · rw [hexec, splitFields_of_tag hlen htag, decodeHeaderText_of_value hv]
    refine ⟨_, rfl, htag, ?_, rfl, rfl, rfl, slice_body_length f, fun k hk => slice_body_getElem? f hk⟩
    rw [List.getElem?_eq_getElem (by omega), List.getD_eq_getElem _ _ (by omega)]

/-- Settles O44: without a length bound the rule's shape is the model's check. -/
theorem splitFrameRefusesNonFrames : Obligations.SplitFrameRefusesNonFrames := by
  intro s f hshape
  cases hf : isFrame f with
  | true => exact absurd ((Laws.frameShape_iff none f).mpr ⟨hf, rfl⟩) hshape
  | false => exact exec_splitFrame_of_not_isFrame hf s

/-- Settles O45: the two rows refuse, and a number of 5 or more selects one of them. -/
theorem reservedUnitSelectsAreRefused : Obligations.ReservedUnitSelectsAreRefused := by
  refine ⟨fun s => ⟨rfl, fun low => exec_unitselReserved67 low s⟩, fun s op x rest hop hi => ?_⟩
  rw [step_of_decode hi rfl]
  rcases unitSelect_cases op with rfl | rfl | rfl | rfl | rfl | rfl | rfl | rfl
  iterate 5 exact absurd hop (by decide)
  all_goals rfl

/-- Settles O50: seven codes, all different. -/
theorem errorCodesAreTheTables : Obligations.ErrorCodesAreTheTables := by
  have hall : ∀ k, k ∈ [ErrKind.tooShort, .unsupportedFrameType, .malformedHeader, .unknownOpcode, .invalidAddress,
      .connectionError, .connectionLost] := by
    intro k
    cases k <;> decide
  exact ⟨rfl, fun j k h => List.inj_on_of_nodup_map (by decide) (hall j) (hall k) h⟩

/-- Settles O46: the prefixed body is a frame that fits, so it is emitted whole, and its split answers what went in. -/
theorem fieldsSurviveTheWholePath : Obligations.FieldsSurviveTheWholePath := by
  intro s major minor busAddress body hstart hend hbody hlen hfits
  have hshape := frameShape_prefixed ((isData_iff _).mpr ⟨hstart, hend⟩) major minor busAddress hbody hfits
  refine ⟨_, _, _, _, rfl, rfl, rfl, exec_feed_of_feedBytes (feedBytes_of_frameShape hshape _), rfl, rfl, ?_⟩
  refine (exec_splitFrame_of_isFrame ((Laws.frameShape_iff _ _).mp hshape).1 _).trans ?_
  rw [State.emitAll_params, State.answer_params, splitFields_prefixed s.params major minor busAddress hlen]
  rfl

end Sys2Proof.Machine
end

section
/-! PROOFS. The whole-machine statements (10_state.md R8, R21, R26; 20_memory.md R44 to R48; 60_exceptions.md R195): what one
step keeps, adds, consumes and refuses; when it goes on; then the settled obligations. -/

namespace Sys2Proof.Machine

/-! ## What an operation and a step keep and add (R8, R26, R45, R47) -/

/-- A step keeps the parameters and consumes the oldest delivery, if there is one. -/
theorem step_frame {s t : State} (h : step s = .next t) : t.params = s.params ∧ t.input = s.input.tail := by
  rcases step_cases h with ⟨hi, rfl⟩ | ⟨x, rest, i, -, -, hexec⟩
  · exact ⟨rfl, by rw [hi]; rfl⟩
  · exact exec_frame hexec

/-- R45, R48: an operation that goes on adds events at the end of the frame output. -/
theorem exec_frameOut {i : Instr} {s t : State} (h : exec i s = .next t) : ∃ es, t.frameOut = s.frameOut ++ es := by
  rcases exec_next_cases h with ⟨op, b, -, -, rfl⟩ | ⟨chunk, u, es, -, -, rfl⟩ | ⟨-, rfl⟩ | ⟨r, -, rfl⟩ | ⟨k, rfl⟩
  · exact ⟨_, rfl⟩
  · exact ⟨es, rfl⟩
  all_goals exact ⟨[], (List.append_nil _).symm⟩

/-- The tokenizer's part of the invariant is kept from `s` to `t`, and only well-shaped events are added (R21, R113, R184). -/
def KeepsInvariant (s t : State) : Prop :=
  t.tok.inv s.params = true ∧ ∃ es, t.frameOut = s.frameOut ++ es ∧ ∀ e ∈ es, Event.ok s.params e = true

theorem keepsInvariant_of_unchanged {s t : State} (hinv : s.tok.inv s.params = true) (htok : t.tok = s.tok)
    (hout : t.frameOut = s.frameOut) : KeepsInvariant s t :=
  ⟨by rw [htok]; exact hinv, [], by rw [hout, List.append_nil], nofun⟩

theorem exec_keepsInvariant {i : Instr} {s t : State} (hp : s.params.wf = true) (hinv : s.tok.inv s.params = true)
    (h : exec i s = .next t) : KeepsInvariant s t := by
  rcases exec_next_cases h with ⟨op, b, -, hsel, rfl⟩ | ⟨chunk, u, es, -, hfeed, rfl⟩ | ⟨-, rfl⟩ | ⟨r, -, rfl⟩ | ⟨k, rfl⟩
  · obtain ⟨htok, hok⟩ := tokStep_keeps_inv hp hinv (tokStep_of_select hsel)
    exact ⟨htok, _, rfl, by simpa using hok⟩
  · obtain ⟨u', es', hfeed', hu, hok⟩ := feedBytes_total hp chunk hinv
    cases hfeed.symm.trans hfeed'
    exact ⟨hu, es, rfl, hok⟩
  · exact ⟨Tokenizer.inv_outside hp, [], (List.append_nil _).symm, nofun⟩
  · exact keepsInvariant_of_unchanged hinv rfl rfl
  · exact keepsInvariant_of_unchanged hinv rfl rfl

theorem step_keepsInvariant {s t : State} (hp : s.params.wf = true) (hinv : s.tok.inv s.params = true)
    (h : step s = .next t) : KeepsInvariant s t := by
  rcases step_cases h with ⟨-, rfl⟩ | ⟨x, rest, i, -, -, hexec⟩
  · exact keepsInvariant_of_unchanged hinv rfl rfl
  · exact exec_keepsInvariant (s := s.consume) hp hinv hexec

/-! ## The step of a received byte, inverted (R45, R108) -/

/-- A received byte's step that goes on is the tokenizer's step on that byte. -/
theorem step_rxByte_next {s t : State} {b : Byte} {rest : List Transaction} (hi : s.input = .rxByte b :: rest)
    (h : step s = .next t) :
    ∃ op, selectTok s.view b = some op ∧
      t = { s.emit (tokAfter op b s.tok) (emissionOf op s.tok.buf) with input := rest } := by
  cases hsel : selectTok s.view b with
  | some op =>
    rw [step_of_tokStep hi (tokStep_of_select hsel)] at h
    cases h
    exact ⟨op, rfl, rfl⟩
  | none => simp [step, hi, decode, hsel] at h

/-- R102: only the end marker of a frame in progress emits a frame, the whole buffer closed by that marker. -/
theorem emissionOf_eq_frame {op : TokOp} {buf f : List Byte} (h : emissionOf op buf = some (.frame f)) :
    op = .endEmit ∧ f = Memory.close buf := by
  cases op <;> cases h
  exact ⟨rfl, rfl⟩

/-! ## Refusals (R71, R79, R160; log entry 12) -/

theorem instr_of_tokOpOf {i : Instr} {op : TokOp} {b : Byte} (h : tokOpOf i = some (op, b)) : op.instr b = i := by
  cases i <;> cases h <;> rfl

/-- A tokenizer operation that is ill formed or not selected is refused: what the state selects is neither. -/
theorem exec_tokOp_refused {i : Instr} {op : TokOp} {b : Byte} {s : State} (hop : tokOpOf i = some (op, b))
    (h : (i.wf && i.selectedIn s.view) = false) : exec i s = .refused .notSelected := by
  rw [exec_eq_runTok hop]
  refine if_neg fun hsel => ?_
  obtain ⟨-, hw, hs⟩ := encode_instr_of_select hsel
  rw [instr_of_tokOpOf hop] at hw hs
  simp [hw, hs] at h

theorem answerLowercase_refused {s : State} (h : s.params.acceptLowercaseHex = false) (v : Byte) :
    answerLowercase v s = .refused .notSelected := by
  simp [answerLowercase, h]

/-- R73: a byte of a digit or upper-case row has that row whatever ACCEPT_LOWERCASE_HEX says. -/
theorem isHexByte_of_upper {c : Byte} (h : isHexByte false c = true) (lowercase : Bool) : isHexByte lowercase c = true := by
  obtain ⟨n, hn⟩ := Option.isSome_iff_exists.mp h
  rw [isHexByte, hexDec_eq_of_upper hn]
  rfl

theorem execHexdecInvalid_refused {c : Byte} {s : State} (h : isHexByte s.params.acceptLowercaseHex c = true) :
    execHexdecInvalid c s = .refused .notSelected := if_pos h

/-- A step that is refused had a delivery that selects nothing, or one whose operation is refused. -/
theorem step_refused_cases {s : State} {r : Refusal} (h : step s = .refused r) :
    ∃ x rest, s.input = x :: rest ∧
      ((∃ why, decode s.view x = .error why ∧ r = .noOperation why) ∨
        ∃ i, decode s.view x = .ok i ∧ exec i s.consume = .refused r) := by
  unfold step at h
  split at h
  · cases h
  · next x rest hi =>
    refine ⟨x, rest, hi, ?_⟩
    split at h
    · next i hd => exact .inr ⟨i, hd, h⟩
    · next why hd => cases h; exact .inl ⟨why, hd, rfl⟩

/-- An operation a delivery selects is never refused as not selected. -/
theorem exec_decoded_ne_notSelected {s : State} {x : Transaction} {i : Instr} (hd : decode s.view x = .ok i) :
    exec i s ≠ .refused .notSelected := by
  cases x with
  | rxByte b =>
    obtain ⟨op, hsel, rfl⟩ := decode_rxByte_eq_ok hd
    rw [exec_instr_of_select hsel]
    exact nofun
  | unitSel op x =>
    cases hd
    rcases exec_decodeUnit_cases op x s with ⟨-, r, h⟩ | ⟨-, h | ⟨-, h⟩⟩ <;> rw [h] <;> exact nofun
  | hexChar c =>
    cases hd
    rw [State.view_acceptLowercaseHex, exec_decodeHexChar_value]
    exact nofun
  | nibble n =>
    cases hd
    rw [exec_decodeNibble]
    exact nofun
  | chunk bytes =>
    cases hd
    cases hf : feedBytes s.params bytes s.tok with
    | some r => rw [exec_feed_of_feedBytes hf]; exact nofun
    | none => rw [exec_feed_of_none hf]; exact nofun
  | signal level =>
    obtain ⟨he, -, -⟩ := decode_ok_of_port hd nofun
    cases i with
    | reset => exact nofun
    | _ => cases he

/-! ## When a step goes on (R79, R112, R160; log entries 5, 17) -/

/-- On a reachable tokenizer a delivery's step goes on exactly where the delivery has a meaning. -/
theorem step_goesOn_iff {s : State} {x : Transaction} {rest : List Transaction} (hp : s.params.wf = true)
    (hinv : s.tok.inv s.params = true) (hi : s.input = x :: rest) :
    (∃ t, step s = .next t) ↔ x.hasMeaning = true := by
  cases x with
  | rxByte b =>
    obtain ⟨t, e, hstep⟩ := tokStep_total hinv b
    exact iff_of_true ⟨_, step_of_tokStep hi hstep⟩ rfl
  | unitSel op x =>
    rw [step_of_decode hi rfl]
    rcases exec_decodeUnit_cases op x s.consume with ⟨hm, r, h⟩ | ⟨hm, h | ⟨-, h⟩⟩ <;> rw [h, hm] <;> simp
  | hexChar c => exact iff_of_true ⟨_, step_hexChar hi⟩ rfl
  | nibble n => exact iff_of_true ⟨_, (step_of_decode hi rfl).trans (exec_decodeNibble n _)⟩ rfl
  | chunk bytes =>
    obtain ⟨t, es, hfeed, -, -⟩ := feedBytes_total hp bytes hinv
    exact iff_of_true ⟨_, (step_of_decode hi rfl).trans (exec_feed_of_feedBytes (s := s.consume) hfeed)⟩ rfl
  | signal level =>
    by_cases hl : level = 1
    · subst hl
      exact iff_of_true ⟨_, step_of_decode hi rfl⟩ rfl
    · refine iff_of_false ?_ (by simpa [Transaction.hasMeaning] using hl)
      have hd : decode s.view (.signal level) = .error .resetNotAsserted := if_neg hl
      simp [step, hi, hd]

/-! ## The undelivered input (R44, R47; log entry 5) -/

/-- An outcome with the undelivered input replaced. -/
def withInput (l : List Transaction) : Host.Outcome State Fault Refusal → Host.Outcome State Fault Refusal
  | .next t => .next { t with input := l }
  | .fault r => .fault r
  | .refused r => .refused r

theorem exec_tokOp_withInput {i : Instr} {op : TokOp} {b : Byte} (hop : tokOpOf i = some (op, b)) (s : State)
    (l : List Transaction) : exec i { s with input := l } = withInput l (exec i s) := by
  have hview : State.view { s with input := l } = s.view := rfl
  simp only [exec_eq_runTok hop, runTok, hview]
  split <;> rfl

theorem conclude_withInput {α : Type} (s : State) (ok : α → Result) (r : Except ErrKind α) (l : List Transaction) :
    State.conclude { s with input := l } ok r = { s.conclude ok r with input := l } := by
  cases r <;> rfl

theorem answerLowercase_withInput (v : Byte) (s : State) (l : List Transaction) :
    answerLowercase v { s with input := l } = withInput l (answerLowercase v s) := by
  simp only [answerLowercase]
  split <;> rfl

/-- R44, R47: no operation looks at the undelivered input. -/
theorem exec_withInput (i : Instr) (s : State) (l : List Transaction) :
    exec i { s with input := l } = withInput l (exec i s) := by
  cases i with
  | tokStart | tokEndEmit | tokEndNull | tokEndStray | tokDataAppend | tokDataOverflow | tokDataDiscard =>
    exact exec_tokOp_withInput rfl s l
  | hexdecLowerA | hexdecLowerBC | hexdecLowerDE | hexdecLowerF => exact answerLowercase_withInput _ s l
  | decodeHeader | encodeHeaderDefault => exact congrArg Host.Outcome.next (conclude_withInput s _ _ l)
  | splitFrame f =>
    simp only [exec, execSplitFrame, conclude_withInput]
    split <;> rfl
  | hexdecInvalid | hexencLetter =>
    simp only [exec, execHexdecInvalid, execHexencLetter]
    split <;> rfl
  | feed chunk =>
    simp only [exec, execFeed]
    split <;> rfl
  | _ => rfl

/-- What waits behind the oldest delivery is carried along, and nothing else depends on it. -/
theorem step_withInput (s : State) (x : Transaction) (rest : List Transaction) :
    step { s with input := x :: rest } = withInput rest (step { s with input := [x] }) := by
  have hview : ∀ l, State.view { s with input := l } = s.view := fun _ => rfl
  simp only [step, hview]
  split
  · next i hd => exact exec_withInput i (State.consume { s with input := [x] }) rest
  · rfl

/-! ## The settled statements of the whole machine -/

/-- Settles O2: the consumed delivery is the head of the line. -/
theorem stepRunsTheDecodedInstruction : Obligations.StepRunsTheDecodedInstruction := by
  intro s x rest i hi hd
  rw [step_of_decode hi hd, State.consume, hi]
  rfl

/-- Settles O3: the first branch of the step. -/
theorem idleStepKeepsTheState : Obligations.IdleStepKeepsTheState := by
  intro s hi
  simp [step, hi]

/-- Settles O17: row by row, the guard of an instruction is its selection; a step performs what it decoded. -/
theorem unselectedOperationsAreRefused : Obligations.UnselectedOperationsAreRefused := by
  refine ⟨fun i s h hsplit => ?_, fun s hstep => ?_⟩
  · cases i with
    | tokStart | tokEndEmit | tokEndNull | tokEndStray | tokDataAppend | tokDataOverflow | tokDataDiscard =>
      exact exec_tokOp_refused rfl h
    | hexdecLowerA | hexdecLowerBC | hexdecLowerDE | hexdecLowerF => exact answerLowercase_refused h _
    | hexdecInvalid c =>
      refine execHexdecInvalid_refused ?_
      cases hupper : isHexByte false c with
      | true => exact isHexByte_of_upper hupper _
      | false => simpa [Instr.wf, Instr.selectedIn, hupper] using h
    | hexencLetter n =>
      have hn : ¬ 10 ≤ n := by simpa [Instr.wf, Instr.selectedIn] using h
      exact if_neg hn
    | splitFrame f => exact absurd rfl (hsplit f)
    | _ => cases h
  · obtain ⟨x, rest, -, ⟨why, -, hr⟩ | ⟨i, hd, hexec⟩⟩ := step_refused_cases hstep
    · cases hr
    · exact exec_decoded_ne_notSelected (s := s.consume) hd hexec

/-- Settles O56: the parameters stay, the tokenizer stays reachable, and what is added to the output is well shaped. -/
theorem everyStepKeepsTheInvariant : Obligations.EveryStepKeepsTheInvariant := by
  rintro s t ⟨hp, hinv, hout⟩ h
  obtain ⟨hparams, -⟩ := step_frame h
  obtain ⟨htok, es, hes, hok⟩ := step_keepsInvariant hp hinv h
  refine ⟨by rw [hparams]; exact hp, by rw [hparams]; exact htok, ?_⟩
  rw [hes, hparams, List.all_append, hout, List.all_eq_true.mpr hok]
  rfl

/-- Settles O23: the events a step adds are well shaped, and a well-shaped frame has the rule's shape. -/
theorem everyEmittedFrameHasTheFrameShape : Obligations.EveryEmittedFrameHasTheFrameShape := by
  intro s t es f hp hinv h hes hf
  obtain ⟨-, es', hes', hok⟩ := step_keepsInvariant hp hinv h
  obtain rfl : es = es' := List.append_cancel_left (hes.symm.trans hes')
  exact (Laws.frameShape_iff _ _).mpr (by simpa [Event.ok] using hok _ hf)

/-- Settles O52: the frame of a step. -/
theorem parametersAreNeverWritten : Obligations.ParametersAreNeverWritten := fun _ _ h => (step_frame h).1

/-- Settles O53: an idle step adds nothing, an operation adds its events. -/
theorem outputIsNeverRevised : Obligations.OutputIsNeverRevised := by
  intro s t h
  rcases step_cases h with ⟨-, rfl⟩ | ⟨x, rest, i, -, -, hexec⟩
  · exact ⟨[], (List.append_nil _).symm⟩
  · exact exec_frameOut (s := s.consume) hexec

/-- Settles O54: the one event added is the emission of the byte's operation, which is then `TOK.END.EMIT`. -/
theorem emissionIsAtomicAndWhole : Obligations.EmissionIsAtomicAndWhole := by
  intro s t b rest f hi h hout
  obtain ⟨op, hsel, rfl⟩ := step_rxByte_next hi h
  have hemit : emissionOf op s.tok.buf = some (.frame f) := Option.toList_eq_singleton_iff.mp (List.append_cancel_left hout)
  obtain ⟨rfl, rfl⟩ := emissionOf_eq_frame hemit
  obtain ⟨hb, -, -⟩ : b = Config.END ∧ s.view.inside = true ∧ 2 ≤ s.view.len := by simpa using selectTok_cases hsel
  subst hb
  exact ⟨rfl, rfl, rfl, rfl⟩


/-- Settles O55: the longer line's step is the shorter one's with the rest of the line put back. -/
theorem stepLooksAtTheOldestDeliveryOnly : Obligations.StepLooksAtTheOldestDeliveryOnly := by
  intro s x rest
  rw [step_withInput s x rest]
  cases hstep : step { s with input := [x] } with
  | fault r => exact nomatch r
  | refused r => simp [withInput]
  | next u =>
    have hu : u.input = [] := (step_frame hstep).2
    refine ⟨fun t => ⟨?_, ?_⟩, by simp [withInput]⟩
    · rintro ⟨⟩
      exact ⟨rfl, hu⟩
    · rintro ⟨hnext, ht⟩
      cases u
      cases t
      simp_all [withInput]

/-- Settles O57: the idle step goes on, and a delivery's step goes on exactly where it has a meaning. -/
theorem stepStopsOnlyOnMeaninglessDeliveries : Obligations.StepStopsOnlyOnMeaninglessDeliveries := by
  rintro s ⟨hp, hinv, -⟩
  cases hi : s.input with
  | nil => exact iff_of_true ⟨s, idleStepKeepsTheState s hi⟩ nofun
  | cons x rest =>
    rw [step_goesOn_iff hp hinv hi]
    refine ⟨?_, fun h => h x rest rfl⟩
    rintro hm _ _ ⟨⟩
    exact hm

/-- Settles O58: each step goes on by O57, keeps the invariant by O56, and leaves deliveries that have a meaning. -/
theorem noMeaningfulRunStops : Obligations.NoMeaningfulRunStops := by
  intro n
  induction n with
  | zero => exact fun s hinv _ => ⟨s, rfl, hinv⟩
  | succ n ih =>
    intro s hinv hm
    obtain ⟨t, hstep⟩ := (stepStopsOnlyOnMeaninglessDeliveries s hinv).mpr fun x rest hi => hm x (by simp [hi])
    have hinput := (step_frame hstep).2
    obtain ⟨u, hrun, hu⟩ := ih t (everyStepKeepsTheInvariant s t hinv hstep) fun x hx =>
      hm x (List.mem_of_mem_tail (hinput ▸ hx))
    exact ⟨u, (run_succ_of_step hstep n).trans hrun, hu⟩

/-- Settles O59: the stepped state is replaced at its position, the others stay. -/
theorem instancesAreIndependent : Obligations.InstancesAreIndependent := by
  intro k sys sys' h
  unfold System.stepAt at h
  split at h
  · next hk =>
    cases h
    exact ⟨rfl, fun _ _ => rfl, fun s hs => by rw [hk] at hs; cases hs⟩
  · next s hk =>
    split at h
    · next t hstep =>
      cases h
      refine ⟨List.length_set, fun j hj => List.getElem?_set_ne hj.symm, fun s' hs' => ?_⟩
      cases hk.symm.trans hs'
      obtain ⟨hlt, -⟩ := List.getElem?_eq_some_iff.mp hk
      exact ⟨t, hstep, by simp [hlt]⟩
    · cases h
    · cases h

end Sys2Proof.Machine
end
